-- ==== Sys2Proof/Word.lean ====
section
/-! DEFINITION. The word types of the bit packer: bytes, 32-bit accumulators and operands, 48-bit command words. -/

namespace Sys2Proof

/-- One byte of OUT or of IN. -/
abbrev Byte := BitVec 8

/-- An accumulator, or the operand field A of a command (rules R8, R17). -/
abbrev Word := BitVec 32

/-- A command word (rule R100). -/
abbrev CmdWord := BitVec 48

/-- The response register's width (rules R16, R46). -/
abbrev Resp := BitVec 64

/-- A four-bit opcode field (rule R101). -/
abbrev Opcode := BitVec 4

end Sys2Proof
end

