-- ==== Sys2Proof/Config.lean ====
section
/-! DEFINITION. What an implementation fixes (rules R8 to R17) and the free values the spec leaves open. -/

namespace Sys2Proof

/-- The two backends of the sink (rule R13). -/
inductive SinkKind where
  | growable
  | external
deriving DecidableEq, Repr, Inhabited

/-- The open parameters, fixed at rst_all (rules R13 to R15, R240). -/
structure Config where
  /-- SINK_KIND (rule R13). -/
  sinkKind : SinkKind
  /-- INIT_CAP_HINT (rule R14); 0 is allowed. -/
  initCapHint : Nat
  /-- MAX_BUF (rule R15); `none` is the spec's ∞. -/
  maxBuf : Option Nat
deriving DecidableEq, Repr, Inhabited

namespace Config

/-- The configuration of the board the block stands on. DESIGN CHOICE, safe (log entry 4): an opaque constant, because the
spec leaves all three parameters open. -/
opaque board : Config

/-- Free value: the answer of the allocation oracle at its n-th draw, under no law (rule R83). Safe (log entry 5). -/
opaque allocOk : Nat → Bool

/-- Free value: the length of S.BUF after the n-th sink failure (rule R84). Safe (log entry 6). -/
opaque brokenLen : Nat → Nat

/-- Free value: RESP after an SRELEASE of n bytes where n does not fit 64 bits, for which rule R133 states no result.
Safe (log entry 12). -/
opaque wideResp : Nat → Resp

/-- Free value: the five bits of STATUS that show a pending-bit count n of 32 or more, which rule R48 gives no room for.
Safe (log entry 20). -/
opaque wideCount : Nat → BitVec 5

/-- Whether n bytes stay within MAX_BUF (rule R15). -/
def fits (c : Config) (n : Nat) : Bool :=
  match c.maxBuf with
  | none => true
  | some m => decide (n ≤ m)

/-- NBITS_MIN (rule R9). -/
def nbitsMin : Nat := 1

/-- NBITS_MAX (rule R9). -/
def nbitsMax : Nat := 24

/-- MARKER (rule R10). -/
def marker : Byte := 0xFF#8

/-- STUFF (rule R10). -/
def stuff : Byte := 0x00#8

/-- PACKED_LEN_BITS and PACKED_SHIFT (rule R12). -/
def packedLenBits : Nat := 8

/-- The largest value of C.TOTAL and of a CSIZE result: CTOT_W = 64 (rules R16, R199). -/
def totalMax : Nat := 2 ^ 64 - 1

end Config

end Sys2Proof
end

