-- ==== Sys2Proof/Syntax.lean ====
section
/-! DEFINITION. The 13 commands of the opcode map (rule R104), with their operands (rules R102, R103). -/

namespace Sys2Proof

/-- A command. Operands are the fields of the command word, unsigned; PUTBYTES carries its payload too (rule R95). -/
inductive Instr where
  /-- SRESET (rule R130). -/
  | sreset
  /-- SRELEASE (rule R133). -/
  | srelease
  /-- RESERVE size (rule R145). -/
  | reserve (size : Word)
  /-- PUTBITS bits, nbits (rule R150). -/
  | putBits (bits : Word) (nbits : BitVec 8)
  /-- FLUSHBITS (rule R155). -/
  | flushBits
  /-- PUTBYTE value (rule R160). -/
  | putByte (value : Byte)
  /-- PUTBYTES size, payload (rule R165). -/
  | putBytes (size : Word) (payload : List Byte)
  /-- PUTPACKEDCODE code (rule R170). -/
  | putPackedCode (code : Word)
  /-- FLUSH (rule R175). -/
  | flush
  /-- FINALIZE (rule R180). -/
  | finalize
  /-- CADDBITS bits, nbits (rule R192). -/
  | caddBits (bits : Word) (nbits : BitVec 8)
  /-- CADDPACKEDCODE code (rule R194). -/
  | caddPackedCode (code : Word)
  /-- CSIZE (rule R196). -/
  | csize
deriving DecidableEq, Repr

end Sys2Proof
end

