-- ==== Sys2Proof/WellFormed.lean ====
section
/-! DEFINITION. Which commands the host may issue as terms: the payload of PUTBYTES has exactly `size` bytes (rules R95, R109).
Every other operand fills its field of the command word, so its type is its whole range (rules R101 to R103). -/

namespace Sys2Proof

/-- A command whose encoding exists (rule R109). -/
def Instr.wellFormed : Instr → Bool
  | .sreset => true
  | .srelease => true
  | .reserve _ => true
  | .putBits _ _ => true
  | .flushBits => true
  | .putByte _ => true
  | .putBytes size payload => payload.length == size.toNat
  | .putPackedCode _ => true
  | .flush => true
  | .finalize => true
  | .caddBits _ _ => true
  | .caddPackedCode _ => true
  | .csize => true

/-- `wellFormed` as a proposition. -/
abbrev Instr.WellFormed (i : Instr) : Prop := i.wellFormed = true

end Sys2Proof
end

