-- ==== Sys2Proof/Decode.lean ====
section
/-! DEFINITION. The decoder (rules R100 to R109), total on every command word and payload, and the encoder (rules R102, R110). -/

namespace Sys2Proof

/-! ### Fields of the command word (rule R101) -/

/-- OP = w[47:44]. -/
def opField (w : CmdWord) : Opcode := w.extractLsb' 44 4

/-- Z = w[43:40]. -/
def zField (w : CmdWord) : BitVec 4 := w.extractLsb' 40 4

/-- N = w[39:32]. -/
def nField (w : CmdWord) : BitVec 8 := w.extractLsb' 32 8

/-- A = w[31:0]. -/
def aField (w : CmdWord) : Word := w.extractLsb' 0 32

/-- The byte operand A[7:0] of format FB (rule R102). -/
def byteField (a : Word) : Byte := a.extractLsb' 0 8

/-- A[31:8], which format FB requires to be zero (rule R102). -/
def upperField (a : Word) : BitVec 24 := a.extractLsb' 8 24

/-! ### The opcode map (rule R104) -/

/-- The four formats (rule R102). -/
inductive Format where
  | f0
  | fa
  | fb
  | fn
deriving DecidableEq, Repr

/-- Why the decoder answers ILLEGAL_COMMAND, in the order of its checks (rules R108, R216). -/
inductive Reject where
  /-- Opcode 0x0, 0xE or 0xF (rule R105). -/
  | reservedOpcode
  /-- A nonzero Z field (rule R106). -/
  | nonzeroZ
  /-- Nonzero N or A bits where the format requires zero (rule R106). -/
  | nonzeroOperand
  /-- A PUTBYTES payload that does not have A bytes (rule R109). -/
  | payloadLength
deriving DecidableEq, Repr

/-- The format of each opcode; `none` for the reserved ones (rules R104, R105). -/
def formatOf (op : Opcode) : Option Format :=
  match op.toNat with
  | 0x1 => some .f0
  | 0x2 => some .f0
  | 0x3 => some .fa
  | 0x4 => some .fn
  | 0x5 => some .f0
  | 0x6 => some .fb
  | 0x7 => some .fa
  | 0x8 => some .fa
  | 0x9 => some .f0
  | 0xA => some .f0
  | 0xB => some .fn
  | 0xC => some .fa
  | 0xD => some .f0
  | _ => none

/-- Whether N and A have zeros where the format requires them (rule R102). -/
def operandsOk (f : Format) (n : BitVec 8) (a : Word) : Bool :=
  match f with
  | .f0 => n == 0#8 && a == 0#32
  | .fa => n == 0#8
  | .fb => n == 0#8 && upperField a == 0#24
  | .fn => true

/-- The command of an opcode and its operand fields, once the fields have passed their checks (rules R103, R104). -/
def assemble (op : Opcode) (n : BitVec 8) (a : Word) (payload : List Byte) : Except Reject Instr :=
  match op.toNat with
  | 0x1 => .ok .sreset
  | 0x2 => .ok .srelease
  | 0x3 => .ok (.reserve a)
  | 0x4 => .ok (.putBits a n)
  | 0x5 => .ok .flushBits
  | 0x6 => .ok (.putByte (byteField a))
  | 0x7 => if payload.length == a.toNat then .ok (.putBytes a payload) else .error .payloadLength
  | 0x8 => .ok (.putPackedCode a)
  | 0x9 => .ok .flush
  | 0xA => .ok .finalize
  | 0xB => .ok (.caddBits a n)
  | 0xC => .ok (.caddPackedCode a)
  | 0xD => .ok .csize
  | _ => .error .reservedOpcode

/-- The decoder: OP, then Z, then the must-be-zero operand bits, then the payload length (rules R108, R109, R216). A payload
beside a command that is not PUTBYTES is not read. DESIGN CHOICE, unsafe (log entry 13). -/
def decode (w : CmdWord) (payload : List Byte) : Except Reject Instr :=
  match formatOf (opField w) with
  | none => .error .reservedOpcode
  | some f =>
    if zField w ≠ 0#4 then .error .nonzeroZ
    else if operandsOk f (nField w) (aField w) then assemble (opField w) (nField w) (aField w) payload
    else .error .nonzeroOperand

/-! ### The encoder -/

/-- The opcode of each command (rule R104). -/
def opcodeOf : Instr → Opcode
  | .sreset => 0x1#4
  | .srelease => 0x2#4
  | .reserve _ => 0x3#4
  | .putBits _ _ => 0x4#4
  | .flushBits => 0x5#4
  | .putByte _ => 0x6#4
  | .putBytes _ _ => 0x7#4
  | .putPackedCode _ => 0x8#4
  | .flush => 0x9#4
  | .finalize => 0xA#4
  | .caddBits _ _ => 0xB#4
  | .caddPackedCode _ => 0xC#4
  | .csize => 0xD#4

/-- The N field of each command's word (rule R102). -/
def nOf : Instr → BitVec 8
  | .putBits _ nbits => nbits
  | .caddBits _ nbits => nbits
  | _ => 0#8

/-- The A field of each command's word (rule R102). -/
def aOf : Instr → Word
  | .reserve size => size
  | .putBits bits _ => bits
  | .putByte value => value.setWidth 32
  | .putBytes size _ => size
  | .putPackedCode code => code
  | .caddBits bits _ => bits
  | .caddPackedCode code => code
  | _ => 0#32

/-- The payload that follows each command's word (rule R100). -/
def payloadOf : Instr → List Byte
  | .putBytes _ payload => payload
  | _ => []

/-- The command word with the given fields: (OP, 0b0000, N, A), OP highest (rule R110). -/
def commandWord (op : Opcode) (n : BitVec 8) (a : Word) : CmdWord := op ++ 0#4 ++ n ++ a

/-- The command word of a command (rule R110). -/
def encode (i : Instr) : CmdWord := commandWord (opcodeOf i) (nOf i) (aOf i)

/-! ### Assembler text and pseudo-instructions (rules R110, R111) -/

/-- A payload as the assembler writes it (rule R110). -/
def payloadText (payload : List Byte) : String :=
  "[" ++ String.intercalate ", " (payload.map fun b => toString b.toNat) ++ "]"

/-- A command in assembler syntax, numbers in decimal (rule R110). -/
def assemblyText : Instr → String
  | .sreset => "SRESET"
  | .srelease => "SRELEASE"
  | .reserve size => "RESERVE " ++ toString size.toNat
  | .putBits bits nbits => "PUTBITS " ++ toString bits.toNat ++ ", " ++ toString nbits.toNat
  | .flushBits => "FLUSHBITS"
  | .putByte value => "PUTBYTE " ++ toString value.toNat
  | .putBytes size payload => "PUTBYTES " ++ toString size.toNat ++ ", " ++ payloadText payload
  | .putPackedCode code => "PUTPACKEDCODE " ++ toString code.toNat
  | .flush => "FLUSH"
  | .finalize => "FINALIZE"
  | .caddBits bits nbits => "CADDBITS " ++ toString bits.toNat ++ ", " ++ toString nbits.toNat
  | .caddPackedCode code => "CADDPACKEDCODE " ++ toString code.toNat
  | .csize => "CSIZE"

/-- `PUTMARKER m` (rule R111). -/
def putMarker (m : Byte) : List Instr := [.flush, .putByte Config.marker, .putByte m]

/-- `PUTCODE code, len` (rule R111). The rule gives the macro's operands no width: the model takes a code of 32 bits and a len of 8,
and for a code of 2^24 or more the shift in 32 bits drops the bits that do not fit A. DESIGN CHOICE, unsafe (log entry 22). -/
def putCodeMacro (code : Word) (len : BitVec 8) : List Instr :=
  [.putPackedCode ((code <<< Config.packedLenBits) ||| len.setWidth 32)]

/-- `END` (rule R111). -/
def endMacro : List Instr := [.flush, .finalize]

/-! ### The opcode table's numbering -/

/-- The command word of the low `nbits` bits of `w`, as spec/opcode_table.json numbers them. -/
def tableWord (nbits w : Nat) : CmdWord := BitVec.ofNat 48 (w % 2 ^ nbits)

/-- The payload of zeros a table word carries: A bytes for PUTBYTES, none otherwise (rule R100; log entry 1). -/
def tablePayload (w : CmdWord) : List Byte :=
  if opField w == 0x7#4 then List.replicate (aField w).toNat 0#8 else []

/-- What the decoder reads from the table word `w`, with a payload of zeros. -/
def decodeTableWord (nbits w : Nat) : Option Instr :=
  (decode (tableWord nbits w) (tablePayload (tableWord nbits w))).toOption

end Sys2Proof
end

