-- ==== Sys2Proof/Machine/State.lean ====
section
/-! DEFINITION. The state of the block (rules R30 to R47), the model's own fields beside it (log entries 1, 5, 6, 8), the
reasons a step stops, and the state after power-on reset (rule R240). -/

namespace Sys2Proof.Machine

/-- W.MODE (rule R36). -/
inductive Mode where
  | active
  | failed
  | done
deriving DecidableEq, Repr

/-- S.STATE (rule R42). -/
inductive SinkState where
  | opened
  | finalized
  | released
  | broken
deriving DecidableEq, Repr

/-- A byte array of which some bytes hold any value. `cells` lists the bytes whose value is known, by strictly rising address;
an address below `len` that is not listed holds any value (rules R45, R85; log entry 7). -/
structure Memory where
  len : Nat
  cells : List Host.Cell
deriving DecidableEq, Repr

/-- The bit writer W (rules R31 to R36). -/
structure Writer where
  acc : Word
  nb : Nat
  pos : Nat
  rsv : Nat
  mode : Mode
deriving DecidableEq, Repr

/-- The bit counter C (rules R38 to R40). -/
structure Counter where
  acc : Word
  nb : Nat
  total : Nat
deriving DecidableEq, Repr

/-- The sink S (rules R42 to R45); its constant S.KIND stands in the configuration (rule R41). -/
structure Sink where
  state : SinkState
  used : Nat
  cap : Nat
  buf : Memory
deriving DecidableEq, Repr

/-- The allocation oracle as the model holds it: answers placed ahead, then free values (rule R83; log entries 5 and 6). -/
structure Oracle where
  /-- Answers the platform will give, first one first; with none left the answer is the free value `Config.allocOk`. -/
  answers : List Bool
  /-- How many draws have been made. -/
  drawn : Nat
  /-- How many sink failures have happened. -/
  breaks : Nat
deriving DecidableEq, Repr

/-- What the host presents on the command port: a command word with the payload on IN (rule R100), or one of the three reset
events (rules R240, R243, R244). The power-on reset brings the configuration chosen (rules R240, R246). -/
inductive Event where
  | command (word : CmdWord) (payload : List Byte)
  | rstAll (cfg : Config)
  | rstW
  | rstC
deriving DecidableEq, Repr

/-- The whole machine. -/
structure State where
  /-- SINK_KIND, INIT_CAP_HINT and MAX_BUF (rules R13 to R15). -/
  cfg : Config
  w : Writer
  c : Counter
  sink : Sink
  /-- RESP (rule R46). -/
  resp : Resp
  /-- FAULT (rule R47). -/
  fault : BitVec 11
  /-- The events the host has presented and the block has not performed yet, first one first (log entry 1). -/
  port : List Event
  /-- What SRELEASE has handed to the host, oldest first (rule R133; log entry 8). -/
  delivered : List Memory
  oracle : Oracle
deriving DecidableEq, Repr

/-- Why the model stops. The spec's own faults are no stop: they latch FAULT and the step answers a next state (rule R212). -/
inductive Fault where
  /-- Raised by the byte store `emitByte` (rule R94) at an OUT address at or past the length of S.BUF, which does not exist
  (rule R60). Safe: `Inv` rules it out in every state a run reaches (log entry 11). -/
  | outAddress (addr : Nat)
deriving DecidableEq, Repr

/-- Why the model has no meaning for an instruction. -/
inductive Refusal where
  /-- Raised by an arm of `exec` whose instruction has no meaning yet. Safe. No arm answers it now. -/
  | notModelled (mnemonic : String)
deriving DecidableEq, Repr

/-- The byte array of length 0. -/
def Memory.empty : Memory := { len := 0, cells := [] }

/-- A byte array of `n` bytes of any value. -/
def Memory.unknown (n : Nat) : Memory := { len := n, cells := [] }

/-- A freshly constructed writer (rule R243). -/
def Writer.fresh : Writer := { acc := 0#32, nb := 0, pos := 0, rsv := 0, mode := .active }

/-- A freshly constructed counter (rule R244). -/
def Counter.fresh : Counter := { acc := 0#32, nb := 0, total := 0 }

/-- S.CAP at power-on: INIT_CAP_HINT on the growable backend (rule R44). The external backend has no S.CAP and no buffer of
its own: 0, the empty container (rules R45, R82; log entry 14). -/
def powerOnCap (cfg : Config) : Nat :=
  match cfg.sinkKind with
  | .growable => cfg.initCapHint
  | .external => 0

/-- The sink at power-on (rules R42 to R45). -/
def Sink.powerOn (cfg : Config) : Sink :=
  { state := .opened, used := 0, cap := powerOnCap cfg, buf := Memory.unknown (powerOnCap cfg) }

/-- The state right after power-on with a configuration (rules R240, R242) and nothing on the command port. -/
def State.powerOn (cfg : Config) : State :=
  { cfg := cfg, w := Writer.fresh, c := Counter.fresh, sink := Sink.powerOn cfg, resp := 0#64, fault := 0#11,
    port := [], delivered := [], oracle := { answers := [], drawn := 0, breaks := 0 } }

/-- The machine right after reset, on its board. -/
def State.reset : State := State.powerOn Config.board

end Sys2Proof.Machine
end

