-- ==== Sys2Proof/Machine/Operands.lean ====
section
/-! DEFINITION. Operand forms and the pure arithmetic on accumulators: packed codes (rules R12, R103), escapes and pad masks
(rule R23), the append (rule R144), the pad (rules R175, R176) and the projected tail of CSIZE (rule R196). -/

namespace Sys2Proof.Machine

/-- `code[31:8]`, zero-extended to 32 bits (rules R12, R170). -/
def packedPattern (code : Word) : Word := code >>> Config.packedLenBits

/-- `code[7:0]` (rules R12, R170). -/
def packedLength (code : Word) : BitVec 8 := code.extractLsb' 0 Config.packedLenBits

/-- `ones(k) = (1 << k) − 1` (rule R23). -/
def ones (k : Nat) : Word := (1#32 <<< k) - 1#32

/-- `escaped(b)`: the number of output bytes a flushed byte occupies (rule R23). -/
def escaped (b : Byte) : Nat := if b = Config.marker then 2 else 1

/-- `acc[31:24]`, the byte a flush removes (rules R61, R141). -/
def topByte (acc : Word) : Byte := acc.extractLsb' 24 8

/-- `acc[31−8j : 24−8j]`, the j-th byte from the top (rule R196). -/
def byteAt (acc : Word) (j : Nat) : Byte := acc.extractLsb' (24 - 8 * j) 8

/-- The pad count up to the next byte boundary, 0 when already at one (rule R176). -/
def padCount (nb : Nat) : Nat := (8 - nb % 8) % 8

/-- An accumulator with `pad` one-bits below its `nb` pending bits (rules R11, R175). -/
def padOnes (acc : Word) (nb pad : Nat) : Word := acc ||| (ones pad <<< (32 - nb - pad))

/-- An accumulator with `v` placed so that its lowest bit ends the `nb` pending bits (rule R144, after the update of NB). -/
def appendBits (acc : Word) (v : Word) (nb : Nat) : Word := acc ||| (v <<< (32 - nb))

/-- The bytes that the pending bits of an accumulator would make once padded, escapes included (rule R196). -/
def projectedTail (acc : Word) (nb : Nat) : Nat :=
  ((List.range ((nb + padCount nb) / 8)).map fun j => escaped (byteAt (padOnes acc nb (padCount nb)) j)).sum

end Sys2Proof.Machine
end

