-- ==== Sys2Proof/Machine/Flags.lean ====
section
/-! DEFINITION. The status words the block has where others have condition flags (rule R50): the packing of FAULT (rules R47,
R211), the STATUS view (rule R48), the sink view (rule R86), what the host observes (rule R49) and the values of RESP. -/

namespace Sys2Proof.Machine

/-! ### FAULT -/

/-- The fault causes (rule R211). -/
inductive Cause where
  | illegalCommand
  | writerNotActive
  | nbitsRange
  | bitsOutsideWidth
  | pendingBits
  | overrun
  | sinkNotOpen
  | releaseInvalid
  | counterOverflow
deriving DecidableEq, Repr

/-- The unit a fault is recorded for (rule R47). -/
inductive BlockUnit where
  | writer
  | counter
  | sink
  | decoder
deriving DecidableEq, Repr

/-- `FAULT.CAUSE` (rule R211). -/
def causeCode : Cause → BitVec 4
  | .illegalCommand => 1#4
  | .writerNotActive => 2#4
  | .nbitsRange => 3#4
  | .bitsOutsideWidth => 4#4
  | .pendingBits => 5#4
  | .overrun => 6#4
  | .sinkNotOpen => 7#4
  | .releaseInvalid => 8#4
  | .counterOverflow => 9#4

/-- `FAULT.UNIT` (rule R47). -/
def unitCode : BlockUnit → BitVec 2
  | .writer => 0#2
  | .counter => 1#2
  | .sink => 2#2
  | .decoder => 3#2

/-- FAULT with V = 1: OP in bits 10:7, UNIT in 6:5, CAUSE in 4:1, V in 0 (rule R47). -/
def faultWord (cause : Cause) (unit : BlockUnit) (op : Opcode) : BitVec 11 :=
  op ++ unitCode unit ++ causeCode cause ++ 1#1

/-- `FAULT.V` (rule R47). -/
def faultV (s : State) : Bool := s.fault.getLsbD 0

/-! ### STATUS -/

/-- `STATUS[6:5]` (rule R48). -/
def modeCode : Mode → BitVec 2
  | .active => 0#2
  | .failed => 1#2
  | .done => 2#2

/-- `STATUS[14:13]` (rule R48). -/
def sinkStateCode : SinkState → BitVec 2
  | .opened => 0#2
  | .finalized => 1#2
  | .released => 2#2
  | .broken => 3#2

/-- `STATUS[15]` (rule R48). -/
def kindCode : SinkKind → BitVec 1
  | .growable => 0#1
  | .external => 1#1

/-- A pending-bit count in five bits (rules R33, R48). A FLUSH stopped by OVERRUN can leave W.NB = 32, which five bits do not
hold: a free value. DESIGN CHOICE, safe (log entry 20). -/
def countField (n : Nat) : BitVec 5 := if n < 32 then BitVec.ofNat 5 n else Config.wideCount n

/-- STATUS, the 32-bit read-only view (rule R48). -/
def statusWord (s : State) : BitVec 32 :=
  0#15 ++ BitVec.ofBool (faultV s) ++ kindCode s.cfg.sinkKind ++ sinkStateCode s.sink.state ++ countField s.c.nb
    ++ 0#1 ++ modeCode s.w.mode ++ countField s.w.nb

/-! ### The sink view -/

/-- The known value of one byte of a byte array; `none` for a byte of any value and for an address that does not exist. -/
def Memory.read (m : Memory) (addr : Nat) : Option Byte := m.cells.lookup addr

/-- `m[0 .. n−1]`, a byte array of length `n`. -/
def Memory.take (m : Memory) (n : Nat) : Memory := { len := n, cells := m.cells.filter fun c => decide (c.1 < n) }

/-- What the host may read of OUT between commands (rule R86); `none` where there is no valid output. -/
def sinkView (s : State) : Option Memory :=
  match s.sink.state with
  | .opened =>
    match s.cfg.sinkKind with
    | .growable => some (s.sink.buf.take s.sink.used)
    | .external => some s.sink.buf
  | .finalized => some s.sink.buf
  | .released => some Memory.empty
  | .broken => none

/-- The host's observation between two commands (rule R49). -/
structure HostView where
  resp : Resp
  fault : BitVec 11
  status : BitVec 32
  counterTotal : Nat
  view : Option Memory
deriving DecidableEq, Repr

/-- Everything the host can see, and nothing else (rule R49). -/
def hostView (s : State) : HostView :=
  { resp := s.resp, fault := s.fault, status := statusWord s, counterTotal := s.c.total, view := sinkView s }

/-! ### RESP -/

/-- `true` as 1 and `false` as 0 (rule R46). -/
def respOfBool (b : Bool) : Resp := if b then 1#64 else 0#64

/-- `zext_64` of a byte count (rule R133). Where the count does not fit 64 bits the rule states no value: a free value.
DESIGN CHOICE, safe (log entry 12). -/
def respOfLength (n : Nat) : Resp := if n < 2 ^ 64 then BitVec.ofNat 64 n else Config.wideResp n

end Sys2Proof.Machine
end

