-- ==== Sys2Proof/Machine/Ops.lean ====
section
/-! DEFINITION. The named operations over registers and memory: raising a fault (rule R212), the guards (rules R140, R213), the
byte store (rule R94), the internal byte flush (rule R141), the operand contract (rule R143) and the append (rule R144), the
counter's copies of them (rule R191), and the three reset events (rules R240, R243, R244). -/

namespace Sys2Proof.Machine

/-! ### How a command proceeds -/

/-- Where a command's pseudocode stands after one of its operations. -/
inductive Run where
  /-- The operation is done and the command goes on. -/
  | go (s : State)
  /-- A fault was raised: the command has ended (rule R212). -/
  | ended (s : State)
  /-- The model stops. -/
  | stop (r : Fault)
deriving DecidableEq, Repr

/-- The next operation, performed only where the command goes on. -/
def Run.andThen (r : Run) (k : State → Run) : Run :=
  match r with
  | .go s => k s
  | .ended s => .ended s
  | .stop f => .stop f

/-- A command's outcome. A raised fault is a next state (rules R212, R214). -/
def Run.outcome (r : Run) : Host.Outcome State Fault Refusal :=
  match r with
  | .go s => .next s
  | .ended s => .next s
  | .stop f => .fault f

/-! ### Faults

Taking a fault is one operation. There is no return from one: no command clears FAULT, no state is saved and nothing nests
(rules R214, R219); only the power-on reset clears it (rule R213). -/

/-- `raise Fault(cause)`: latches FAULT unless a fault is recorded already, and touches nothing else (rule R212). -/
def latchFault (cause : Cause) (unit : BlockUnit) (op : Opcode) (s : State) : State :=
  if faultV s then s else { s with fault := faultWord cause unit op }

/-- `raise Fault(cause)` inside a command, which ends there (rule R212). -/
def raise (cause : Cause) (unit : BlockUnit) (op : Opcode) (s : State) : Run := .ended (latchFault cause unit op s)

/-- A command is performed only while FAULT.V = 0; a faulted block keeps its state (rule R213). -/
def whenRunning (s : State) (k : State → Run) : Host.Outcome State Fault Refusal :=
  if faultV s then .next s else (k s).outcome

/-- `WriterGuard()` (rule R140). -/
def writerGuard (op : Opcode) (s : State) : Run :=
  if s.w.mode = .active then .go s else raise .writerNotActive .writer op s

/-- `CheckCode(v, n)` (rule R143), recorded for the unit whose command it is (rule R211). -/
def checkCode (unit : BlockUnit) (op : Opcode) (v : Word) (n : Nat) (s : State) : Run :=
  if n < Config.nbitsMin ∨ Config.nbitsMax < n then raise .nbitsRange unit op s
  else if v >>> n ≠ 0#32 then raise .bitsOutsideWidth unit op s
  else .go s

/-- The precondition of raw byte writes: no pending bits (rules R160, R162). -/
def requireNoPending (op : Opcode) (s : State) : Run :=
  if s.w.nb ≠ 0 then raise .pendingBits .writer op s else .go s

/-! ### Memory -/

/-- A list of cells with `addr` holding `b`, addresses still rising. -/
def writeCell (addr : Nat) (b : Byte) : List Host.Cell → List Host.Cell
  | [] => [(addr, b)]
  | c :: cs =>
    if addr < c.1 then (addr, b) :: c :: cs
    else if addr = c.1 then (addr, b) :: cs
    else c :: writeCell addr b cs

/-- `MemWrite(addr, 1, b)` on a byte array that has the address (rules R21, R65). -/
def Memory.write (m : Memory) (addr : Nat) (b : Byte) : Memory := { m with cells := writeCell addr b m.cells }

/-- The canonical form: addresses strictly rising, each below the length. An unlisted byte reads as no value, so no entry can
equal what an unlisted address reads as. -/
abbrev Memory.wf (m : Memory) : Prop :=
  m.cells.Pairwise (fun a b => a.1 < b.1) ∧ ∀ c ∈ m.cells, c.1 < m.len

/-- `m[0 .. used−1] ++ (bytes of any value)`, of length `len` (rules R75, R79). -/
def Memory.regrow (m : Memory) (used len : Nat) : Memory := { m.take used with len := len }

/-! ### Field updates -/

/-- W with another accumulator and pending count. -/
def State.withBits (s : State) (acc : Word) (nb : Nat) : State := { s with w := { s.w with acc := acc, nb := nb } }

/-- C with another accumulator and pending count. -/
def State.withCounterBits (s : State) (acc : Word) (nb : Nat) : State := { s with c := { s.c with acc := acc, nb := nb } }

/-- The byte at the cursor written and the cursor advanced (rule R94). -/
def State.withStored (s : State) (b : Byte) : State :=
  { s with
    sink := { s.sink with buf := s.sink.buf.write (s.sink.used + s.w.pos) b }
    w := { s.w with pos := s.w.pos + 1 } }

/-! ### The writer's primitives -/

/-- `EmitByte(b)`, the writer's only store (rule R94). An address past the end of S.BUF does not exist (rule R60): the model
stops. DEDUCED, safe (log entry 11). -/
def emitByte (op : Opcode) (b : Byte) (s : State) : Run :=
  if s.w.rsv ≤ s.w.pos then raise .overrun .writer op s
  else if s.sink.buf.len ≤ s.sink.used + s.w.pos then .stop (.outAddress (s.sink.used + s.w.pos))
  else .go (s.withStored b)

/-- The escape rule: a marker byte is followed by a stuffed zero (rules R10, R141). -/
def emitStuffing (op : Opcode) (b : Byte) (s : State) : Run :=
  if b = Config.marker then emitByte op Config.stuff s else .go s

/-- One turn of the flush loop's body (rule R141). -/
def flushOne (op : Opcode) (s : State) : Run :=
  ((emitByte op (topByte s.w.acc) s).andThen (emitStuffing op (topByte s.w.acc))).andThen
    fun t => .go (t.withBits (t.w.acc <<< 8) (t.w.nb - 8))

/-- `while W.NB >= 8` of `FlushBytes()`, at most `fuel` turns (rule R141). -/
def flushLoop (op : Opcode) : Nat → State → Run
  | 0, s => .go s
  | fuel + 1, s => if 8 ≤ s.w.nb then (flushOne op s).andThen (flushLoop op fuel) else .go s

/-- `FlushBytes()` (rule R141). Each turn takes 8 from W.NB, so W.NB turns are more than enough (rule R263). -/
def flushBytes (op : Opcode) (s : State) : Run := flushLoop op s.w.nb s

/-- `Append(v, n)` (rule R144). -/
def appendCode (v : Word) (n : Nat) (s : State) : State := s.withBits (appendBits s.w.acc v (s.w.nb + n)) (s.w.nb + n)

/-- The pad of FLUSH: one-bits up to the next byte boundary (rules R11, R175, R176). -/
def padBits (s : State) : State :=
  s.withBits (padOnes s.w.acc s.w.nb (padCount s.w.nb)) (s.w.nb + padCount s.w.nb)

/-- The raw bytes of a payload at the cursor, in order, unescaped (rule R165). -/
def emitRaw (op : Opcode) : List Byte → State → Run
  | [], s => .go s
  | b :: bs, s => (emitByte op b s).andThen (emitRaw op bs)

/-! ### The counter's primitives -/

/-- `CAdd(k)` (rules R191, R199). -/
def counterAdd (op : Opcode) (k : Nat) (s : State) : Run :=
  if Config.totalMax < s.c.total + k then raise .counterOverflow .counter op s
  else .go { s with c := { s.c with total := s.c.total + k } }

/-- One turn of the loop of `CountFlush()` (rule R191). -/
def countFlushOne (op : Opcode) (s : State) : Run :=
  (counterAdd op (escaped (topByte s.c.acc)) s).andThen
    fun t => .go (t.withCounterBits (t.c.acc <<< 8) (t.c.nb - 8))

/-- `while C.NB >= 8` of `CountFlush()`, at most `fuel` turns (rule R191). -/
def countFlushLoop (op : Opcode) : Nat → State → Run
  | 0, s => .go s
  | fuel + 1, s => if 8 ≤ s.c.nb then (countFlushOne op s).andThen (countFlushLoop op fuel) else .go s

/-- `CountFlush()` (rule R191). -/
def countFlush (op : Opcode) (s : State) : Run := countFlushLoop op s.c.nb s

/-- `CAppend(v, n)` (rule R191). -/
def counterAppend (v : Word) (n : Nat) (s : State) : State :=
  s.withCounterBits (appendBits s.c.acc v (s.c.nb + n)) (s.c.nb + n)

/-! ### Reset events -/

/-- `rst_all` with the configuration chosen (rules R240, R246). What lies outside the block stays: the events still to come,
the bytes already delivered, the oracle. DESIGN CHOICE, safe (log entry 9). -/
def powerOnReset (cfg : Config) (s : State) : State :=
  { State.powerOn cfg with port := s.port, delivered := s.delivered, oracle := s.oracle }

/-- `rst_w` (rule R243). -/
def constructWriter (s : State) : State := if faultV s then s else { s with w := Writer.fresh }

/-- `rst_c` (rule R244). -/
def constructCounter (s : State) : State := if faultV s then s else { s with c := Counter.fresh }

end Sys2Proof.Machine
end

