-- ==== Sys2Proof/Machine/CounterCommands.lean ====
section
/-! DEFINITION. The three bit counter commands (42_bit_counter.md). They have no mode and no reservation (rules R190, R193). -/

namespace Sys2Proof.Machine

/-- The body CADDBITS and CADDPACKEDCODE share: contract, flush, append (rules R192, R194). -/
def addCode (op : Opcode) (v : Word) (n : Nat) (s : State) : Run :=
  ((checkCode .counter op v n s).andThen (countFlush op)).andThen fun s => .go (counterAppend v n s)

/-- CADDBITS (rules R192, R193). -/
def execCaddBits (bits : Word) (nbits : BitVec 8) (s : State) : Host.Outcome State Fault Refusal :=
  whenRunning s (addCode (opcodeOf (.caddBits bits nbits)) bits nbits.toNat)

/-- CADDPACKEDCODE (rules R194, R195). -/
def execCaddPackedCode (code : Word) (s : State) : Host.Outcome State Fault Refusal :=
  whenRunning s (addCode (opcodeOf (.caddPackedCode code)) (packedPattern code) (packedLength code).toNat)

/-- The size CSIZE answers, before it is narrowed to RESP (rule R196). -/
def predictedSize (s : State) : Nat := s.c.total + projectedTail s.c.acc s.c.nb

/-- CSIZE (rules R196, R197, R199). -/
def execCsize (s : State) : Host.Outcome State Fault Refusal :=
  whenRunning s fun s =>
    if Config.totalMax < predictedSize s then raise .counterOverflow .counter (opcodeOf .csize) s
    else .go { s with resp := BitVec.ofNat 64 (predictedSize s) }

end Sys2Proof.Machine
end

