-- ==== Sys2Proof/Machine/SinkPort.lean ====
section
/-! DEFINITION. The sink contract and its two backends: the oracle (rules R22, R83), Commit (rules R67 to R71, R75, R79),
Finalize (rules R72, R77, R80), Reset (rules R73, R78, R81). -/

namespace Sys2Proof.Machine

/-- How a sink operation ends: `ok` and `fail` are results, `raised` is a fault already latched (rules R22, R210). -/
inductive Verdict where
  | ok
  | fail
  | raised
deriving DecidableEq, Repr

/-- A sink operation's verdict and the state it leaves. -/
structure SinkReply where
  verdict : Verdict
  state : State
deriving DecidableEq, Repr

/-! ### The oracle -/

/-- The answer `draw(alloc_ok)` gives: the first answer placed ahead, else a free value (rule R83; log entry 5). -/
def oracleAnswer (o : Oracle) : Bool :=
  match o.answers with
  | a :: _ => a
  | [] => Config.allocOk o.drawn

/-- The oracle after one draw. -/
def oracleNext (o : Oracle) : Oracle := { o with answers := o.answers.tail, drawn := o.drawn + 1 }

/-- The state after one draw. -/
def State.withDraw (s : State) : State := { s with oracle := oracleNext s.oracle }

/-! ### Failure -/

/-- A sink operation failed: BROKEN, and the contents and length of S.BUF are any value (rules R71, R84): no byte is listed and
the length is a free value. DESIGN CHOICE, safe (log entry 6). -/
def breakSink (s : State) : State :=
  { s with
    sink := { s.sink with state := .broken, buf := Memory.unknown (Config.brokenLen s.oracle.breaks) }
    oracle := { s.oracle with breaks := s.oracle.breaks + 1 } }

/-- The sink operation that failed, as a reply. -/
def failReply (s : State) : SinkReply := { verdict := .fail, state := breakSink s }

/-- A reply after a draw: `grown` where the oracle answers true, else failure (rules R75, R77, R79, R80). -/
def drawReply (s : State) (grown : State → State) : SinkReply :=
  if oracleAnswer s.oracle then { verdict := .ok, state := grown s.withDraw } else failReply s.withDraw

/-! ### Commit -/

/-- The new capacity of a growth, exactly `max(2 · S.CAP, need)` (rule R75). -/
def newCapacity (cap need : Nat) : Nat := max (2 * cap) need

/-- The buffer copied forward into `newcap` bytes (rules R75, R76). -/
def growTo (newcap : Nat) (s : State) : State :=
  { s with sink := { s.sink with buf := s.sink.buf.regrow s.sink.used newcap, cap := newcap } }

/-- Growable Commit, backend part (rule R75). -/
def commitGrowable (need : Nat) (s : State) : SinkReply :=
  if need ≤ s.sink.cap then { verdict := .ok, state := s }
  else if s.cfg.fits (newCapacity s.sink.cap need) then drawReply s (growTo (newCapacity s.sink.cap need))
  else failReply s

/-- The external container resized to `need` bytes (rule R79). -/
def resizeTo (need : Nat) (s : State) : State :=
  { s with sink := { s.sink with buf := s.sink.buf.regrow s.sink.used need } }

/-- External Commit, backend part (rule R79). -/
def commitExternal (need : Nat) (s : State) : SinkReply :=
  if s.cfg.fits need then drawReply s (resizeTo need) else failReply s

/-- The written bytes acknowledged (rule R67). -/
def acknowledge (used : Nat) (s : State) : State := { s with sink := { s.sink with used := s.sink.used + used } }

/-- The backend part of Commit, selected by S.KIND (rules R41, R67). -/
def commitBackend (need : Nat) (s : State) : SinkReply :=
  match s.cfg.sinkKind with
  | .growable => commitGrowable need s
  | .external => commitExternal need s

/-- `S.Commit(used, extra)` (rule R67). -/
def sinkCommit (op : Opcode) (used extra : Nat) (s : State) : SinkReply :=
  if s.sink.state = .opened then commitBackend (s.sink.used + used + extra) (acknowledge used s)
  else { verdict := .raised, state := latchFault .sinkNotOpen .sink op s }

/-! ### Finalize -/

/-- The buffer trimmed to S.USED bytes and frozen; on the growable backend S.CAP follows (rules R77, R80). -/
def trimSink (s : State) : State :=
  match s.cfg.sinkKind with
  | .growable =>
    { s with sink := { s.sink with buf := s.sink.buf.take s.sink.used, cap := s.sink.used, state := .finalized } }
  | .external => { s with sink := { s.sink with buf := s.sink.buf.take s.sink.used, state := .finalized } }

/-- `S.Finalize()` (rules R72, R77, R80). -/
def sinkFinalize (op : Opcode) (s : State) : SinkReply :=
  if s.sink.state = .opened then drawReply s trimSink
  else { verdict := .raised, state := latchFault .sinkNotOpen .sink op s }

/-! ### Reset -/

/-- `S.Reset()`: empty and OPEN, from every sink state (rules R73, R78, R81). The external backend has no S.CAP, which the
model holds at 0 there (log entry 14). -/
def sinkReset (s : State) : State :=
  { s with sink := { state := .opened, used := 0, cap := 0, buf := Memory.empty } }

end Sys2Proof.Machine
end

