-- ==== Sys2Proof/Machine/SinkCommands.lean ====
section
/-! DEFINITION. The two sink commands (40_sink_commands.md). -/

namespace Sys2Proof.Machine

/-- An ACTIVE writer abandoned (rule R131). -/
def abandonWriter (s : State) : State :=
  { s with w := { s.w with mode := if s.w.mode = .active then .failed else s.w.mode } }

/-- The finalized buffer handed to the host (rule R133). -/
def deliver (s : State) : State :=
  { s with
    delivered := s.delivered ++ [s.sink.buf.take s.sink.used]
    resp := respOfLength s.sink.used
    sink := { state := .released, used := 0, cap := 0, buf := Memory.empty } }

/-- SRESET (rules R130, R131). -/
def execSreset (s : State) : Host.Outcome State Fault Refusal :=
  whenRunning s fun s => .go (abandonWriter (sinkReset s))

/-- What SRELEASE leaves: the delivery, or RELEASE_INVALID on the external backend or a sink that is not FINALIZED (rules R133,
R134). -/
def releaseResult (s : State) : State :=
  if s.cfg.sinkKind ≠ .growable then latchFault .releaseInvalid .sink (opcodeOf .srelease) s
  else if s.sink.state ≠ .finalized then latchFault .releaseInvalid .sink (opcodeOf .srelease) s
  else deliver s

/-- SRELEASE (rules R133, R134). -/
def execSrelease (s : State) : Host.Outcome State Fault Refusal := whenRunning s fun s => .go (releaseResult s)

end Sys2Proof.Machine
end

