-- ==== Sys2Proof/Machine/WriterCommands.lean ====
section
/-! DEFINITION. The eight bit writer commands (41_bit_writer.md). -/

namespace Sys2Proof.Machine

/-! ### Reservation and end of stream -/

/-- RESERVE's registers after its Commit (rule R145). -/
def reserveResult (size : Word) (r : SinkReply) : State :=
  match r.verdict with
  | .ok => { r.state with w := { r.state.w with pos := 0, rsv := size.toNat }, resp := respOfBool true }
  | .fail => { r.state with w := { r.state.w with mode := .failed }, resp := respOfBool false }
  | .raised => r.state

/-- RESERVE (rule R145). -/
def execReserve (size : Word) (s : State) : Host.Outcome State Fault Refusal :=
  whenRunning s fun s =>
    (writerGuard (opcodeOf (.reserve size)) s).andThen fun s =>
      .go (reserveResult size (sinkCommit (opcodeOf (.reserve size)) s.w.pos size.toNat s))

/-- The writer's region given up (rule R180: `W.POS <- 0; W.RSV <- 0`). Rule R52's table does not list these two writes of FINALIZE.
DEDUCED, safe (log entry 21). -/
def closeRegion (s : State) : State := { s with w := { s.w with pos := 0, rsv := 0 } }

/-- FINALIZE's result and the end of the writer (rules R180, R182). -/
def finishWriter (ok : Bool) (s : State) : State := { s with resp := respOfBool ok, w := { s.w with mode := .done } }

/-- FINALIZE's registers after the sink's Finalize (rule R180). -/
def finalizeResult (r : SinkReply) : State :=
  match r.verdict with
  | .ok => finishWriter true r.state
  | .fail => finishWriter false r.state
  | .raised => r.state

/-- FINALIZE after its Commit (rule R180). -/
def finalizeAfterCommit (op : Opcode) (r : SinkReply) : State :=
  match r.verdict with
  | .ok => finalizeResult (sinkFinalize op (closeRegion r.state))
  | .fail => finishWriter false r.state
  | .raised => r.state

/-- FINALIZE (rules R180 to R182). -/
def execFinalize (s : State) : Host.Outcome State Fault Refusal :=
  whenRunning s fun s =>
    (writerGuard (opcodeOf .finalize) s).andThen fun s =>
      .go (finalizeAfterCommit (opcodeOf .finalize) (sinkCommit (opcodeOf .finalize) s.w.pos 0 s))

/-! ### Codes -/

/-- The body PUTBITS and PUTPACKEDCODE share: guard, contract, flush, append (rules R150, R170). -/
def putCode (op : Opcode) (v : Word) (n : Nat) (s : State) : Run :=
  (((writerGuard op s).andThen (checkCode .writer op v n)).andThen (flushBytes op)).andThen
    fun s => .go (appendCode v n s)

/-- PUTBITS (rule R150). -/
def execPutBits (bits : Word) (nbits : BitVec 8) (s : State) : Host.Outcome State Fault Refusal :=
  whenRunning s (putCode (opcodeOf (.putBits bits nbits)) bits nbits.toNat)

/-- PUTPACKEDCODE (rules R170, R171). -/
def execPutPackedCode (code : Word) (s : State) : Host.Outcome State Fault Refusal :=
  whenRunning s (putCode (opcodeOf (.putPackedCode code)) (packedPattern code) (packedLength code).toNat)

/-- FLUSHBITS (rule R155). -/
def execFlushBits (s : State) : Host.Outcome State Fault Refusal :=
  whenRunning s fun s => (writerGuard (opcodeOf .flushBits) s).andThen (flushBytes (opcodeOf .flushBits))

/-- FLUSH (rules R175 to R177). -/
def execFlush (s : State) : Host.Outcome State Fault Refusal :=
  whenRunning s fun s =>
    (writerGuard (opcodeOf .flush) s).andThen fun s => flushBytes (opcodeOf .flush) (padBits s)

/-! ### Raw bytes -/

/-- PUTBYTE (rules R160 to R162). -/
def execPutByte (value : Byte) (s : State) : Host.Outcome State Fault Refusal :=
  whenRunning s fun s =>
    ((writerGuard (opcodeOf (.putByte value)) s).andThen (requireNoPending (opcodeOf (.putByte value)))).andThen
      (emitByte (opcodeOf (.putByte value)) value)

/-- A PUTBYTES whose payload does not have `size` bytes is ill-formed, before anything else is checked (rules R109, R216). The
decoder refuses it already; a meaning called directly refuses it here (log entry 17). -/
def requirePayload (op : Opcode) (size : Word) (payload : List Byte) (s : State) : Run :=
  if payload.length = size.toNat then .go s else raise .illegalCommand .decoder op s

/-- PUTBYTES (rules R165, R166). -/
def execPutBytes (size : Word) (payload : List Byte) (s : State) : Host.Outcome State Fault Refusal :=
  whenRunning s fun s =>
    (((requirePayload (opcodeOf (.putBytes size payload)) size payload s).andThen
      (writerGuard (opcodeOf (.putBytes size payload)))).andThen
        (requireNoPending (opcodeOf (.putBytes size payload)))).andThen
          (emitRaw (opcodeOf (.putBytes size payload)) payload)

end Sys2Proof.Machine
end

