-- ==== Sys2Proof/Machine/Dispatch.lean ====
section
/-! DEFINITION. The dispatch: one arm per command of the opcode map (rule R104). -/

namespace Sys2Proof.Machine

def exec (i : Instr) (s : State) : Host.Outcome State Fault Refusal :=
  match i with
  | .sreset => Sys2Proof.Machine.execSreset s
  | .srelease => Sys2Proof.Machine.execSrelease s
  | .reserve size => Sys2Proof.Machine.execReserve size s
  | .putBits bits nbits => Sys2Proof.Machine.execPutBits bits nbits s
  | .flushBits => Sys2Proof.Machine.execFlushBits s
  | .putByte value => Sys2Proof.Machine.execPutByte value s
  | .putBytes size payload => Sys2Proof.Machine.execPutBytes size payload s
  | .putPackedCode code => Sys2Proof.Machine.execPutPackedCode code s
  | .flush => Sys2Proof.Machine.execFlush s
  | .finalize => Sys2Proof.Machine.execFinalize s
  | .caddBits bits nbits => Sys2Proof.Machine.execCaddBits bits nbits s
  | .caddPackedCode code => Sys2Proof.Machine.execCaddPackedCode code s
  | .csize => Sys2Proof.Machine.execCsize s

end Sys2Proof.Machine
end

