-- ==== Sys2Proof/Machine/Port.lean ====
section
/-! DEFINITION. The command port (rules R3, R100, R112): which event the block performs next, what performing it does, and how
the host places a command (log entries 1 to 3). -/

namespace Sys2Proof.Machine

/-- A command word and its payload: decoded, then performed, or ILLEGAL_COMMAND (rules R105, R106, R108, R109). A faulted block
decodes nothing (rules R108, R213). -/
def runCommand (word : CmdWord) (payload : List Byte) (s : State) : Host.Outcome State Fault Refusal :=
  if faultV s then .next s
  else
    match decode word payload with
    | .ok i => exec i s
    | .error _ => .next (latchFault .illegalCommand .decoder (opField word) s)

/-- One event of the host (rules R3, R240, R243, R244). -/
def runEvent (e : Event) (s : State) : Host.Outcome State Fault Refusal :=
  match e with
  | .command word payload => runCommand word payload s
  | .rstAll cfg => .next (powerOnReset cfg s)
  | .rstW => .next (constructWriter s)
  | .rstC => .next (constructCounter s)

/-- The state with the port's first event taken off. -/
def State.withPort (s : State) (port : List Event) : State := { s with port := port }

/-- One step: the port's first event, or, with nothing on the port, waiting (rules R227, R241, R257). -/
def portStep (s : State) : Host.Outcome State Fault Refusal :=
  match s.port with
  | [] => .next s
  | e :: rest => runEvent e (s.withPort rest)

/-- The host presents a command as the next event. -/
def placeCommand (s : State) (word : CmdWord) (payload : List Byte) : State :=
  s.withPort (.command word payload :: s.port)

end Sys2Proof.Machine
end

