-- ==== Sys2Proof/Machine/Step.lean ====
section
/-! DEFINITION. One step of the block, and the placing of one command where the next step takes it. -/

namespace Sys2Proof.Machine

/-- One step (rule R3). -/
def step (s : State) : Host.Outcome State Fault Refusal := portStep s

/-- `s` with the command of the table word `w` first on the command port, a PUTBYTES with a payload of zeros (log entry 1). -/
def State.withFetchWord (s : State) (nbits w : Nat) : State :=
  placeCommand s (tableWord nbits w) (tablePayload (tableWord nbits w))

end Sys2Proof.Machine
end

