-- ==== Sys2Proof/Safety.lean ====
section
/-! DEFINITION. The terms claims are stated in: when a run ends well (rule R248), the invariant of the states a run reaches
(rules R32 to R45, R84, R85), the bytes a flush emits (rules R141, R185), and what a writer command may touch (rule R52). -/

namespace Sys2Proof.Machine

/-! ### Standing conditions -/

/-- The block performs commands: FAULT.V = 0 (rule R213). -/
abbrev Running (s : State) : Prop := faultV s = false

/-- A writer command passes its guard (rules R140, R213). -/
abbrev WriterReady (s : State) : Prop := Running s ∧ s.w.mode = .active

/-- The operand contract of a code (rule R143). -/
abbrev CodeOk (v : Word) (n : Nat) : Prop := 1 ≤ n ∧ n ≤ 24 ∧ v.toNat < 2 ^ n

/-- W is Idle: no pending bits (rule R37). -/
abbrev WriterIdle (s : State) : Prop := s.w.nb = 0

/-! ### Families of commands (rules R52, R104, R140) -/

/-- The commands of the bit writer, which pass WriterGuard first (rule R140). -/
def writerCommand : Instr → Bool
  | .sreset => false
  | .srelease => false
  | .reserve _ => true
  | .putBits _ _ => true
  | .flushBits => true
  | .putByte _ => true
  | .putBytes _ _ => true
  | .putPackedCode _ => true
  | .flush => true
  | .finalize => true
  | .caddBits _ _ => false
  | .caddPackedCode _ => false
  | .csize => false

/-- The writer commands that can emit bytes (rule R52). -/
def emittingCommand : Instr → Bool
  | .sreset => false
  | .srelease => false
  | .reserve _ => false
  | .putBits _ _ => true
  | .flushBits => true
  | .putByte _ => true
  | .putBytes _ _ => true
  | .putPackedCode _ => true
  | .flush => true
  | .finalize => false
  | .caddBits _ _ => false
  | .caddPackedCode _ => false
  | .csize => false

/-- The writer commands that run FlushBytes, so that every byte they emit is a flushed byte or a stuffed zero (rule R141). -/
def flushingCommand : Instr → Bool
  | .sreset => false
  | .srelease => false
  | .reserve _ => false
  | .putBits _ _ => true
  | .flushBits => true
  | .putByte _ => false
  | .putBytes _ _ => false
  | .putPackedCode _ => true
  | .flush => true
  | .finalize => false
  | .caddBits _ _ => false
  | .caddPackedCode _ => false
  | .csize => false

/-- The commands of the bit counter (rule R190). -/
def counterCommand : Instr → Bool
  | .sreset => false
  | .srelease => false
  | .reserve _ => false
  | .putBits _ _ => false
  | .flushBits => false
  | .putByte _ => false
  | .putBytes _ _ => false
  | .putPackedCode _ => false
  | .flush => false
  | .finalize => false
  | .caddBits _ _ => true
  | .caddPackedCode _ => true
  | .csize => true

/-- The unit, the value and the bit count of a command that carries a code; a packed code is split by division, as its layout
(value, then eight bits of length) says (rules R12, R150, R170, R192, R194). -/
def codeOperands : Instr → Option (BlockUnit × Word × Nat)
  | .putBits bits nbits => some (.writer, bits, nbits.toNat)
  | .putPackedCode code => some (.writer, BitVec.ofNat 32 (code.toNat / 256), code.toNat % 256)
  | .caddBits bits nbits => some (.counter, bits, nbits.toNat)
  | .caddPackedCode code => some (.counter, BitVec.ofNat 32 (code.toNat / 256), code.toNat % 256)
  | _ => none

/-- The state with a fault latched and nothing else changed (rule R212). -/
def State.faulted (s : State) (cause : Cause) (unit : BlockUnit) (op : Opcode) : State :=
  { s with fault := faultWord cause unit op }

/-- An outcome with FAULT.OP = FAULT[10:7] blanked, to compare two commands that differ in their opcode only (log entry 18). -/
def blankOp (o : Host.Outcome State Fault Refusal) : Host.Outcome State Fault Refusal :=
  match o with
  | .next t => .next { t with fault := t.fault &&& 0b00001111111#11 }
  | .fault r => .fault r
  | .refused r => .refused r

/-- Commands performed one after the other, with the state each leaves given to the next (rule R112). -/
def execAll : List Instr → State → Host.Outcome State Fault Refusal
  | [], s => .next s
  | i :: is, s =>
    match exec i s with
    | .next t => execAll is t
    | .fault r => .fault r
    | .refused r => .refused r

/-! ### The end of a run (rule R248) -/

/-- A run ends well in a state with no fault recorded. -/
def EndsWell (s : State) : Prop := faultV s = false

/-- A stream is complete: the writer is DONE and its sink FINALIZED, or RELEASED with the bytes delivered. RESP = 1 from the
writer's FINALIZE is what a DONE writer over such a sink has had (DEDUCED, unsafe in principle, log entry 19). The rule's definition
says nothing about a run that ends with FAULT.V = 1: the model counts a stream finalized before the fault as complete there too
(DESIGN CHOICE, unsafe, log entry 23); the runs the rule speaks of are those that also meet `EndsWell`. -/
def StreamComplete (s : State) : Prop :=
  s.w.mode = .done ∧ (s.sink.state = .finalized ∨ s.sink.state = .released)

/-! ### The bytes a flush emits -/

/-- A flushed byte with its escape (rules R10, R141). -/
def stuffed (b : Byte) : List Byte := if b = 0xFF#8 then [b, 0x00#8] else [b]

/-- What flushing the top `k` bytes of an accumulator emits, first one first: each time the byte `ACC[31:24]`, taken here by
division and so independently of the model's own extraction (rules R61, R141). -/
def flushOutput (acc : Word) : Nat → List Byte
  | 0 => []
  | k + 1 => stuffed (BitVec.ofNat 8 (acc.toNat / 2 ^ 24)) ++ flushOutput (acc <<< 8) k

/-- `bs` written at consecutive addresses from `addr` (rule R62). -/
def Memory.writeList (m : Memory) (addr : Nat) : List Byte → Memory
  | [] => m
  | b :: bs => (m.write addr b).writeList (addr + 1) bs

/-- `bs` written at the writer's cursor and the cursor advanced past them (rule R94). -/
def State.withOutput (s : State) (bs : List Byte) : State :=
  { s with
    sink := { s.sink with buf := s.sink.buf.writeList (s.sink.used + s.w.pos) bs }
    w := { s.w with pos := s.w.pos + bs.length } }

/-- `n` more bytes fit the reservation and the part of S.BUF it lies in (rules R68, R94). No byte always fits, whatever the sink
holds: the rules check the room byte by byte. -/
abbrev RoomFor (s : State) (n : Nat) : Prop :=
  n = 0 ∨ s.w.pos + n ≤ s.w.rsv ∧ s.sink.used + s.w.pos + n ≤ s.sink.buf.len

/-- The state after flushing the top `k` bytes of the writer's accumulator (rule R141). -/
def State.flushed (s : State) (k : Nat) : State :=
  (s.withOutput (flushOutput s.w.acc k)).withBits (s.w.acc <<< (8 * k)) (s.w.nb - 8 * k)

/-- The state after the counter has counted the top `k` bytes of its accumulator (rule R191). -/
def State.countFlushed (s : State) (k : Nat) : State :=
  { s with c := { acc := s.c.acc <<< (8 * k), nb := s.c.nb - 8 * k, total := s.c.total + (flushOutput s.c.acc k).length } }

/-! ### The invariant -/

/-- Every byte of the addresses from `lo` up to `hi` has a known value. -/
def Memory.Known (m : Memory) (lo hi : Nat) : Prop := ∀ a, lo ≤ a → a < hi → (m.read a).isSome = true

/-- The units each cause is recorded for (rule R211). -/
def causeUnit : Cause → BlockUnit → Bool
  | .illegalCommand, u => u == .decoder
  | .writerNotActive, u => u == .writer
  | .nbitsRange, u => u == .writer || u == .counter
  | .bitsOutsideWidth, u => u == .writer || u == .counter
  | .pendingBits, u => u == .writer
  | .overrun, u => u == .writer
  | .sinkNotOpen, u => u == .sink
  | .releaseInvalid, u => u == .sink
  | .counterOverflow, u => u == .counter

/-- What holds in every state a run reaches. -/
structure Inv (s : State) : Prop where
  /-- Rule R33. A FLUSH stopped by OVERRUN leaves a faulted block with up to 32 pending bits (rules R175, R212; log entry 20). -/
  writerCount : s.w.nb ≤ 32 ∧ (Running s → s.w.nb ≤ 31)
  /-- Rule R32: no bit below the pending bits. -/
  writerLow : s.w.acc <<< s.w.nb = 0#32
  /-- Rule R34. -/
  cursor : s.w.pos ≤ s.w.rsv
  /-- Rule R35. -/
  reservation : s.w.rsv < 2 ^ 32
  /-- Rules R51, R68: an active writer's region is inside S.BUF of an OPEN sink. -/
  region : s.w.mode = .active →
    s.w.rsv = 0 ∨ s.sink.state = .opened ∧ s.sink.used + s.w.rsv ≤ s.sink.buf.len
  /-- Rule R39. -/
  counterCount : s.c.nb ≤ 31
  /-- Rule R38. -/
  counterLow : s.c.acc <<< s.c.nb = 0#32
  /-- Rule R40. -/
  counterTotal : s.c.total ≤ Config.totalMax
  /-- The byte array is in its canonical form. -/
  memory : s.sink.buf.wf
  /-- Rule R43: the committed prefix lies in S.BUF. -/
  usedFits : s.sink.state ≠ .broken → s.sink.used ≤ s.sink.buf.len
  /-- Rule R45: S.BUF has length S.CAP on the growable backend. -/
  capacity : s.cfg.sinkKind = .growable → s.sink.state ≠ .broken → s.sink.buf.len = s.sink.cap
  /-- Rule R44: the external backend has no S.CAP (log entry 14). -/
  noCapacity : s.cfg.sinkKind = .external → s.sink.cap = 0
  /-- Rule R72: a FINALIZED sink holds exactly S.USED bytes. -/
  trimmed : s.sink.state = .finalized → s.sink.buf.len = s.sink.used
  /-- Rules R42, R133: a RELEASED sink is growable and empty. -/
  consumed : s.sink.state = .released →
    s.cfg.sinkKind = .growable ∧ s.sink.used = 0 ∧ s.sink.buf = Memory.empty
  /-- Rule R85: every committed byte was written. -/
  committed : s.sink.state ≠ .broken → s.sink.buf.Known 0 s.sink.used
  /-- Rule R94: every byte of the region below the cursor was written. -/
  written : s.w.mode = .active → s.sink.buf.Known s.sink.used (s.sink.used + s.w.pos)
  /-- Rules R15, R43, R44: MAX_BUF bounds S.USED, S.CAP and S.BUF, where it bounds INIT_CAP_HINT (log entry 16). -/
  bounded : s.cfg.fits s.cfg.initCapHint = true →
    s.cfg.fits s.sink.used = true ∧ s.cfg.fits s.sink.cap = true ∧
      (s.sink.state ≠ .broken → s.cfg.fits s.sink.buf.len = true)
  /-- Rules R47, R211: FAULT is 0 or holds a cause with a unit the rule gives it. -/
  faultForm : s.fault = 0#11 ∨
    ∃ cause unit op, causeUnit cause unit = true ∧ s.fault = faultWord cause unit op
  /-- Rule R133: what was delivered is whole. -/
  deliveredWhole : ∀ m ∈ s.delivered, m.wf ∧ m.Known 0 m.len

/-! ### Frames -/

/-- What a bit writer command that emits bytes leaves unchanged (rule R52): everything but W.ACC, W.NB, W.POS, FAULT and the
bytes of OUT from the cursor before up to the cursor after. -/
structure WriterFrame (s t : State) : Prop where
  cfg : t.cfg = s.cfg
  c : t.c = s.c
  resp : t.resp = s.resp
  port : t.port = s.port
  delivered : t.delivered = s.delivered
  oracle : t.oracle = s.oracle
  rsv : t.w.rsv = s.w.rsv
  mode : t.w.mode = s.w.mode
  sinkState : t.sink.state = s.sink.state
  used : t.sink.used = s.sink.used
  cap : t.sink.cap = s.sink.cap
  len : t.sink.buf.len = s.sink.buf.len
  cursor : s.w.pos ≤ t.w.pos
  bytes : ∀ a, (a < s.sink.used + s.w.pos ∨ s.sink.used + t.w.pos ≤ a) → t.sink.buf.read a = s.sink.buf.read a

/-- What a bit counter command leaves unchanged (rules R52, R190): everything but C, RESP and FAULT. -/
structure CounterFrame (s t : State) : Prop where
  cfg : t.cfg = s.cfg
  w : t.w = s.w
  sink : t.sink = s.sink
  port : t.port = s.port
  delivered : t.delivered = s.delivered
  oracle : t.oracle = s.oracle

end Sys2Proof.Machine
end

