-- ==== Sys2Proof/Certificates/Slice0/Obligations.lean ====
section
/-! DEFINITION. The statements about the block, one `def Obligations.<Name> : Prop` each. -/

open Sys2Proof Sys2Proof.Machine

/-! ### Encoding (30_encoding.md) -/

/-- Rules R101 to R104, R110: decoding the word and payload of a well-formed command gives the command back, for every operand. -/
def Obligations.DecodeInvertsEncode : Prop :=
  ∀ i : Instr, i.WellFormed → decode (encode i) (payloadOf i) = .ok i

/-- Rule R107: a word that decodes is the word of the command it decodes to, so no two words mean the same command. -/
def Obligations.EncodeInvertsDecode : Prop :=
  ∀ (w : CmdWord) (p : List Byte) (i : Instr), decode w p = .ok i →
    encode i = w ∧ i.WellFormed ∧ ∀ size ps, i = .putBytes size ps → ps = p

/-- Rules R102, R110 and vectors E1 to E13, E21 to E23: words written out from the spec decode to the commands they stand for. -/
def Obligations.SpecWordsDecode : Prop :=
  decode 0x100000000000#48 [] = .ok .sreset ∧
  decode 0x200000000000#48 [] = .ok .srelease ∧
  decode 0x300000000010#48 [] = .ok (.reserve 16#32) ∧
  decode 0x400300000005#48 [] = .ok (.putBits 5#32 3#8) ∧
  decode 0x40FF00000000#48 [] = .ok (.putBits 0#32 255#8) ∧
  decode 0x500000000000#48 [] = .ok .flushBits ∧
  decode 0x6000000000FF#48 [] = .ok (.putByte 0xFF#8) ∧
  decode 0x700000000003#48 [0x01#8, 0xFF#8, 0x02#8] = .ok (.putBytes 3#32 [0x01#8, 0xFF#8, 0x02#8]) ∧
  decode 0x80000000FF08#48 [] = .ok (.putPackedCode 0xFF08#32) ∧
  decode 0x900000000000#48 [] = .ok .flush ∧
  decode 0xA00000000000#48 [] = .ok .finalize ∧
  decode 0xB01800FFFFFF#48 [] = .ok (.caddBits 0xFFFFFF#32 24#8) ∧
  decode 0xC00000000503#48 [] = .ok (.caddPackedCode 0x503#32) ∧
  decode 0xD00000000000#48 [] = .ok .csize

/-- Rules R102, R105 to R109: exactly which words, with which payloads, the decoder refuses. That a payload beside a word that is
not PUTBYTES is not read, and so refuses nothing, is the model's choice (log entry 13). -/
def Obligations.IllegalWordsExactly : Prop :=
  ∀ (w : CmdWord) (p : List Byte),
    (∃ r, decode w p = .error r) ↔
      opField w ∈ [0x0#4, 0xE#4, 0xF#4] ∨
      zField w ≠ 0#4 ∨
      (opField w ∈ [0x1#4, 0x2#4, 0x5#4, 0x9#4, 0xA#4, 0xD#4] ∧ (nField w ≠ 0#8 ∨ aField w ≠ 0#32)) ∨
      (opField w ∈ [0x3#4, 0x7#4, 0x8#4, 0xC#4] ∧ nField w ≠ 0#8) ∨
      (opField w = 0x6#4 ∧ (nField w ≠ 0#8 ∨ 256 ≤ (aField w).toNat)) ∨
      (opField w = 0x7#4 ∧ p.length ≠ (aField w).toNat)

/-- Rule R105: a reserved opcode raises ILLEGAL_COMMAND for unit 3 and changes no other state. -/
def Obligations.ReservedOpcodeFaults : Prop :=
  ∀ (s : State) (w : CmdWord) (p : List Byte) (rest : List Event),
    s.port = .command w p :: rest → Running s →
    opField w ∈ [0x0#4, 0xE#4, 0xF#4] →
    step s = .next ((s.withPort rest).faulted .illegalCommand .decoder (opField w))

/-- Rules R102, R106: a nonzero must-be-zero field raises ILLEGAL_COMMAND for unit 3 and changes no other state. -/
def Obligations.MustBeZeroFieldFaults : Prop :=
  ∀ (s : State) (w : CmdWord) (p : List Byte) (rest : List Event),
    s.port = .command w p :: rest → Running s →
    (zField w ≠ 0#4 ∨
      (opField w ∈ [0x1#4, 0x2#4, 0x5#4, 0x9#4, 0xA#4, 0xD#4] ∧ (nField w ≠ 0#8 ∨ aField w ≠ 0#32)) ∨
      (opField w ∈ [0x3#4, 0x7#4, 0x8#4, 0xC#4] ∧ nField w ≠ 0#8) ∨
      (opField w = 0x6#4 ∧ (nField w ≠ 0#8 ∨ 256 ≤ (aField w).toNat))) →
    step s = .next ((s.withPort rest).faulted .illegalCommand .decoder (opField w))

/-- Rules R109, R216: a PUTBYTES whose payload does not have exactly A bytes raises ILLEGAL_COMMAND before any byte is written. The
second half, that its meaning called without the decoder answers the same, is the model's choice (log entry 17). -/
def Obligations.PayloadLengthFaults : Prop :=
  (∀ (s : State) (w : CmdWord) (p : List Byte) (rest : List Event),
    s.port = .command w p :: rest → Running s → opField w = 0x7#4 → p.length ≠ (aField w).toNat →
    step s = .next ((s.withPort rest).faulted .illegalCommand .decoder 0x7#4)) ∧
  ∀ (s : State) (size : Word) (p : List Byte), Running s → p.length ≠ size.toNat →
    exec (.putBytes size p) s = .next (s.faulted .illegalCommand .decoder 0x7#4)

/-! ### Steps and events -/

/-- Rules R3, R100, R108: where the port's first event is a word that decodes, the step is the meaning of that command on the
state with the event taken off the port. -/
def Obligations.StepRunsDecodedCommand : Prop :=
  ∀ (s : State) (w : CmdWord) (p : List Byte) (rest : List Event) (i : Instr),
    s.port = .command w p :: rest → decode w p = .ok i → step s = exec i (s.withPort rest)

/-- Rule R213: a faulted block performs no command and no construction event; the power-on reset, and no other event, clears
FAULT. That an event a faulted block does not perform is taken off the port is the model's inference (log entry 3). -/
def Obligations.FaultedBlockPerformsNothing : Prop :=
  ∀ s : State, faultV s = true →
    (∀ i, exec i s = .next s) ∧
    (∀ e rest, s.port = e :: rest → (∀ cfg, e ≠ .rstAll cfg) → step s = .next (s.withPort rest)) ∧
    (∀ cfg rest, s.port = .rstAll cfg :: rest → ∃ t, step s = .next t ∧ t.fault = 0#11)

/-- Rules R240, R242, R246: rst_all puts the block at its reset values with the configuration chosen. That the port, the
delivered bytes and the oracle stay is the model's choice (log entry 9). -/
def Obligations.PowerOnResetEvent : Prop :=
  ∀ (s : State) (cfg : Config) (rest : List Event), s.port = .rstAll cfg :: rest →
    step s = .next { State.powerOn cfg with port := rest, delivered := s.delivered, oracle := s.oracle }

/-- Rule R243: writer construction, and its having no effect while FAULT.V = 1. That the event is then taken off the port all the
same is the model's inference (log entry 3). -/
def Obligations.WriterConstruction : Prop :=
  ∀ (s : State) (rest : List Event), s.port = .rstW :: rest →
    (Running s →
      step s = .next { s with port := rest, w := { acc := 0#32, nb := 0, pos := 0, rsv := 0, mode := .active } }) ∧
    (faultV s = true → step s = .next { s with port := rest })

/-- Rule R244: counter construction, and its having no effect while FAULT.V = 1. That the event is then taken off the port all the
same is the model's inference (log entry 3). -/
def Obligations.CounterConstruction : Prop :=
  ∀ (s : State) (rest : List Event), s.port = .rstC :: rest →
    (Running s → step s = .next { s with port := rest, c := { acc := 0#32, nb := 0, total := 0 } }) ∧
    (faultV s = true → step s = .next { s with port := rest })

/-- Rules R227, R241: with nothing on the command port the block holds its state. -/
def Obligations.IdleBlockWaits : Prop := ∀ s : State, s.port = [] → step s = .next s

/-- Rules R240, R242: the reset values, for every configuration; the machine's reset is the power-on state of its board. -/
def Obligations.PowerOnValues : Prop :=
  State.reset = State.powerOn Config.board ∧
  ∀ cfg : Config,
    (State.powerOn cfg).w = { acc := 0#32, nb := 0, pos := 0, rsv := 0, mode := .active } ∧
    (State.powerOn cfg).c = { acc := 0#32, nb := 0, total := 0 } ∧
    (State.powerOn cfg).cfg = cfg ∧
    (State.powerOn cfg).sink.state = .opened ∧ (State.powerOn cfg).sink.used = 0 ∧
    (State.powerOn cfg).sink.buf.cells = [] ∧
    (cfg.sinkKind = .growable →
      (State.powerOn cfg).sink.cap = cfg.initCapHint ∧ (State.powerOn cfg).sink.buf.len = cfg.initCapHint) ∧
    (cfg.sinkKind = .external → (State.powerOn cfg).sink.buf.len = 0) ∧
    (State.powerOn cfg).resp = 0#64 ∧ (State.powerOn cfg).fault = 0#11

/-! ### The sink -/

/-- Rules R73, R78, R81, R130 to R132: SRESET empties and opens the sink from every sink state and abandons an ACTIVE writer; the
sink view is then empty on both backends, and a second SRESET changes nothing. -/
def Obligations.SresetEmptiesSink : Prop :=
  ∀ s : State, Running s →
    ∃ t, exec .sreset s = .next t ∧
      t = { s with
        sink := { state := .opened, used := 0, cap := 0, buf := { len := 0, cells := [] } }
        w := { s.w with mode := if s.w.mode = .active then .failed else s.w.mode } } ∧
      sinkView t = some { len := 0, cells := [] } ∧
      exec .sreset t = .next t

/-- Rule R133: SRELEASE delivers the committed bytes and their number, empties the growable sink and leaves it RELEASED. Where the
number does not fit RESP its value is free (log entry 12). -/
def Obligations.SreleaseDelivers : Prop :=
  ∀ s : State, Running s → s.cfg.sinkKind = .growable → s.sink.state = .finalized →
    ∃ t, exec .srelease s = .next t ∧
      t = { s with
        delivered := s.delivered ++ [s.sink.buf.take s.sink.used]
        sink := { state := .released, used := 0, cap := 0, buf := { len := 0, cells := [] } }
        resp := t.resp } ∧
      (s.sink.used < 2 ^ 64 → t.resp.toNat = s.sink.used)

/-- Rules R133, R134, R211: on the external backend, or on a sink that is not FINALIZED, SRELEASE raises RELEASE_INVALID. -/
def Obligations.SreleaseInvalidFaults : Prop :=
  ∀ s : State, Running s → s.cfg.sinkKind = .external ∨ s.sink.state ≠ .finalized →
    exec .srelease s = .next (s.faulted .releaseInvalid .sink 0x2#4)

/-- Rules R67, R75, R145: a RESERVE that fits the growable sink's capacity commits, hands out a new region and asks no oracle. That
the bytes past the committed ones keep their values too, where rule R85 lets them hold any value, is the model's inference
(log entry 15). -/
def Obligations.ReserveWithinCapacity : Prop :=
  ∀ (s : State) (size : Word), WriterReady s → s.sink.state = .opened → s.cfg.sinkKind = .growable →
    s.sink.used + s.w.pos + size.toNat ≤ s.sink.cap →
    exec (.reserve size) s = .next { s with
      sink := { s.sink with used := s.sink.used + s.w.pos }
      w := { s.w with pos := 0, rsv := size.toNat }
      resp := 1#64 }

/-- Rules R75, R76, R83, R84, R145, R148: a RESERVE that does not fit draws once. On true the capacity becomes max(2 · CAP, need),
the committed bytes are kept and every other byte holds any value; on false the writer is FAILED, the sink BROKEN, RESP 0. -/
def Obligations.ReserveGrowsBuffer : Prop :=
  ∀ (s : State) (size : Word), WriterReady s → s.sink.state = .opened → s.cfg.sinkKind = .growable →
    s.sink.cap < s.sink.used + s.w.pos + size.toNat →
    s.cfg.fits (max (2 * s.sink.cap) (s.sink.used + s.w.pos + size.toNat)) = true →
    exec (.reserve size) s = .next (
      if oracleAnswer s.oracle then
        { s with
          sink := { s.sink with
            used := s.sink.used + s.w.pos
            cap := max (2 * s.sink.cap) (s.sink.used + s.w.pos + size.toNat)
            buf := s.sink.buf.regrow (s.sink.used + s.w.pos)
              (max (2 * s.sink.cap) (s.sink.used + s.w.pos + size.toNat)) }
          w := { s.w with pos := 0, rsv := size.toNat }
          resp := 1#64
          oracle := { s.oracle with answers := s.oracle.answers.tail, drawn := s.oracle.drawn + 1 } }
      else
        { s with
          sink := { s.sink with
            used := s.sink.used + s.w.pos
            state := .broken
            buf := { len := Config.brokenLen s.oracle.breaks, cells := [] } }
          w := { s.w with mode := .failed }
          resp := 0#64
          oracle := { answers := s.oracle.answers.tail, drawn := s.oracle.drawn + 1, breaks := s.oracle.breaks + 1 } })

/-- Rules R79, R83, R84, R145, R148: a RESERVE on the external backend draws once. On true the container's length becomes exactly
the need; on false the writer is FAILED, the sink BROKEN, RESP 0. -/
def Obligations.ReserveResizesContainer : Prop :=
  ∀ (s : State) (size : Word), WriterReady s → s.sink.state = .opened → s.cfg.sinkKind = .external →
    s.cfg.fits (s.sink.used + s.w.pos + size.toNat) = true →
    exec (.reserve size) s = .next (
      if oracleAnswer s.oracle then
        { s with
          sink := { s.sink with
            used := s.sink.used + s.w.pos
            buf := s.sink.buf.regrow (s.sink.used + s.w.pos) (s.sink.used + s.w.pos + size.toNat) }
          w := { s.w with pos := 0, rsv := size.toNat }
          resp := 1#64
          oracle := { s.oracle with answers := s.oracle.answers.tail, drawn := s.oracle.drawn + 1 } }
      else
        { s with
          sink := { s.sink with
            used := s.sink.used + s.w.pos
            state := .broken
            buf := { len := Config.brokenLen s.oracle.breaks, cells := [] } }
          w := { s.w with mode := .failed }
          resp := 0#64
          oracle := { answers := s.oracle.answers.tail, drawn := s.oracle.drawn + 1, breaks := s.oracle.breaks + 1 } })

/-- Rules R15, R75, R79, R148, R215: a RESERVE whose new size is above MAX_BUF fails without a draw, and that is no fault. -/
def Obligations.ReserveAboveMaxBufFails : Prop :=
  ∀ (s : State) (size : Word), WriterReady s → s.sink.state = .opened →
    (s.cfg.sinkKind = .growable ∧ s.sink.cap < s.sink.used + s.w.pos + size.toNat ∧
        s.cfg.fits (max (2 * s.sink.cap) (s.sink.used + s.w.pos + size.toNat)) = false ∨
      s.cfg.sinkKind = .external ∧ s.cfg.fits (s.sink.used + s.w.pos + size.toNat) = false) →
    exec (.reserve size) s = .next { s with
      sink := { s.sink with
        used := s.sink.used + s.w.pos
        state := .broken
        buf := { len := Config.brokenLen s.oracle.breaks, cells := [] } }
      w := { s.w with mode := .failed }
      resp := 0#64
      oracle := { s.oracle with breaks := s.oracle.breaks + 1 } }

/-- Rules R67, R72, R74, R135, R211: RESERVE and FINALIZE on a sink that is not OPEN raise SINK_NOT_OPEN. -/
def Obligations.ClosedSinkFaults : Prop :=
  ∀ s : State, WriterReady s → s.sink.state ≠ .opened →
    (∀ size, exec (.reserve size) s = .next (s.faulted .sinkNotOpen .sink 0x3#4)) ∧
    exec .finalize s = .next (s.faulted .sinkNotOpen .sink 0xA#4)

/-- Rules R68, R69: where RESERVE or FINALIZE succeeds, the committed prefix grows by the bytes written and is bit for bit
unchanged; after RESERVE the new region lies inside S.BUF. -/
def Obligations.CommitKeepsCommittedBytes : Prop :=
  ∀ s t : State, Inv s → WriterReady s → s.sink.state = .opened →
    (∀ size : Word, exec (.reserve size) s = .next t → t.w.mode = .active →
      t.sink.used = s.sink.used + s.w.pos ∧
      (∀ a, a < t.sink.used → t.sink.buf.read a = s.sink.buf.read a) ∧
      t.sink.used + size.toNat ≤ t.sink.buf.len) ∧
    (exec .finalize s = .next t → t.sink.state = .finalized →
      t.sink.used = s.sink.used + s.w.pos ∧
      ∀ a, a < t.sink.used → t.sink.buf.read a = s.sink.buf.read a)

/-- Rules R72, R77, R83, R84, R180: FINALIZE on the growable backend commits without a draw, then trims to the bytes used after one
draw, or breaks the sink. W.POS and W.RSV become 0 as R180 writes them; R52 does not list that (log entry 21). -/
def Obligations.FinalizeTrimsGrowable : Prop :=
  ∀ s : State, Inv s → WriterReady s → s.sink.state = .opened → s.cfg.sinkKind = .growable →
    exec .finalize s = .next (
      if oracleAnswer s.oracle then
        { s with
          sink := {
            state := .finalized
            used := s.sink.used + s.w.pos
            cap := s.sink.used + s.w.pos
            buf := s.sink.buf.take (s.sink.used + s.w.pos) }
          w := { s.w with pos := 0, rsv := 0, mode := .done }
          resp := 1#64
          oracle := { s.oracle with answers := s.oracle.answers.tail, drawn := s.oracle.drawn + 1 } }
      else
        { s with
          sink := { s.sink with
            used := s.sink.used + s.w.pos
            state := .broken
            buf := { len := Config.brokenLen s.oracle.breaks, cells := [] } }
          w := { s.w with pos := 0, rsv := 0, mode := .done }
          resp := 0#64
          oracle := { answers := s.oracle.answers.tail, drawn := s.oracle.drawn + 1, breaks := s.oracle.breaks + 1 } })

/-- Rules R79, R80, R83, R180: FINALIZE on the external backend draws for the Commit's resize and again for the truncation; with
both answers true the container holds exactly the bytes used. W.POS and W.RSV become 0 after the Commit as R180 writes them; R52
does not list that (log entry 21). -/
def Obligations.FinalizeTruncatesContainer : Prop :=
  ∀ s : State, WriterReady s → s.sink.state = .opened → s.cfg.sinkKind = .external →
    s.cfg.fits (s.sink.used + s.w.pos) = true →
    ∃ t, exec .finalize s = .next t ∧ t.w.mode = .done ∧
      (oracleAnswer s.oracle = true → oracleAnswer (oracleNext s.oracle) = true →
        t = { s with
          sink := { s.sink with
            state := .finalized
            used := s.sink.used + s.w.pos
            buf := (s.sink.buf.regrow (s.sink.used + s.w.pos) (s.sink.used + s.w.pos)).take (s.sink.used + s.w.pos) }
          w := { s.w with pos := 0, rsv := 0, mode := .done }
          resp := 1#64
          oracle := oracleNext (oracleNext s.oracle) }) ∧
      (oracleAnswer s.oracle = true → oracleAnswer (oracleNext s.oracle) = false →
        t.resp = 0#64 ∧ t.sink.state = .broken ∧ t.w.pos = 0 ∧ t.w.rsv = 0 ∧ t.oracle.drawn = s.oracle.drawn + 2) ∧
      (oracleAnswer s.oracle = false →
        t.resp = 0#64 ∧ t.sink.state = .broken ∧ t.w.pos = s.w.pos ∧ t.w.rsv = s.w.rsv ∧
          t.oracle.drawn = s.oracle.drawn + 1)

/-- Rules R181, R182: whatever its result, FINALIZE leaves pending bits as they are, drops none into OUT, and makes the writer DONE:
every later writer command faults. On RESP = 0 the sink is BROKEN. -/
def Obligations.FinalizeIsTerminal : Prop :=
  ∀ s : State, WriterReady s → s.sink.state = .opened →
    ∃ t, exec .finalize s = .next t ∧
      t.w.mode = .done ∧ t.w.acc = s.w.acc ∧ t.w.nb = s.w.nb ∧ t.sink.used = s.sink.used + s.w.pos ∧
      t.fault = s.fault ∧
      (t.resp = 1#64 ∧ t.sink.state = .finalized ∧ t.sink.buf.len = t.sink.used ∨
        t.resp = 0#64 ∧ t.sink.state = .broken) ∧
      ∀ i, writerCommand i = true → i.WellFormed →
        exec i t = .next (t.faulted .writerNotActive .writer (opcodeOf i))

/-! ### The writer -/

/-- Rule R140: a writer command executes only in mode ACTIVE; else it raises WRITER_NOT_ACTIVE and changes nothing else. -/
def Obligations.InactiveWriterFaults : Prop :=
  ∀ (i : Instr) (s : State), writerCommand i = true → i.WellFormed → Running s → s.w.mode ≠ .active →
    exec i s = .next (s.faulted .writerNotActive .writer (opcodeOf i))

/-- Rules R143, R152, R170, R193, R194, R216: the operand contract of the four commands that carry a code, checked before any
effect and recorded for the writer or the counter. -/
def Obligations.CodeContractFaults : Prop :=
  ∀ (i : Instr) (s : State) (unit : BlockUnit) (v : Word) (n : Nat), codeOperands i = some (unit, v, n) →
    Running s → (unit = .writer → s.w.mode = .active) →
    (n < 1 ∨ 24 < n → exec i s = .next (s.faulted .nbitsRange unit (opcodeOf i))) ∧
    (1 ≤ n → n ≤ 24 → 2 ^ n ≤ v.toNat → exec i s = .next (s.faulted .bitsOutsideWidth unit (opcodeOf i)))

/-- Rules R141, R143, R144, R150, R151, R170: PUTBITS and PUTPACKEDCODE emit the complete bytes pending before them, escaped, and
append their code below the remaining bits. Where no byte is complete nothing is asked of the reservation or of the sink. -/
def Obligations.PutCodeFlushesThenAppends : Prop :=
  ∀ (i : Instr) (s : State) (v : Word) (n : Nat), codeOperands i = some (.writer, v, n) → CodeOk v n → WriterReady s →
    RoomFor s (flushOutput s.w.acc (s.w.nb / 8)).length →
    exec i s = .next { s with
      sink := { s.sink with
        buf := s.sink.buf.writeList (s.sink.used + s.w.pos) (flushOutput s.w.acc (s.w.nb / 8)) }
      w := { s.w with
        acc := (s.w.acc <<< (8 * (s.w.nb / 8))) ||| (v <<< (32 - (s.w.nb % 8 + n)))
        nb := s.w.nb % 8 + n
        pos := s.w.pos + (flushOutput s.w.acc (s.w.nb / 8)).length } }

/-- Rules R171, R195: a packed code is exactly its split code in every outcome, faults included, but for FAULT.OP, which records
the opcode of the command issued (rules R47, R212; log entry 18). -/
def Obligations.PackedCodeIsSplitCode : Prop :=
  ∀ (code bits : Word) (nbits : BitVec 8) (s : State), bits.toNat = code.toNat / 256 →
    nbits.toNat = code.toNat % 256 →
    blankOp (exec (.putPackedCode code) s) = blankOp (exec (.putBits bits nbits) s) ∧
    blankOp (exec (.caddPackedCode code) s) = blankOp (exec (.caddBits bits nbits) s)

/-- Rules R141, R155: FLUSHBITS emits the complete pending bytes, escaped, and never pads. Where no byte is complete nothing is
asked of the reservation or of the sink. -/
def Obligations.FlushBitsEmitsCompleteBytes : Prop :=
  ∀ s : State, WriterReady s → RoomFor s (flushOutput s.w.acc (s.w.nb / 8)).length →
    exec .flushBits s = .next { s with
      sink := { s.sink with
        buf := s.sink.buf.writeList (s.sink.used + s.w.pos) (flushOutput s.w.acc (s.w.nb / 8)) }
      w := { s.w with
        acc := s.w.acc <<< (8 * (s.w.nb / 8))
        nb := s.w.nb % 8
        pos := s.w.pos + (flushOutput s.w.acc (s.w.nb / 8)).length } }

/-- Rules R175 to R177: FLUSH pads the pending bits with ones to a byte boundary, emits them all, escaped, and leaves the
accumulator empty. The accumulator's low bits are zero by the invariant (rule R32). In the Idle state nothing is asked of the
reservation or of the sink. -/
def Obligations.FlushPadsAndEmpties : Prop :=
  ∀ (s : State) (pad : Nat) (out : List Byte), Inv s → WriterReady s →
    pad = (8 - s.w.nb % 8) % 8 →
    out = flushOutput (s.w.acc ||| (BitVec.ofNat 32 (2 ^ pad - 1) <<< (32 - s.w.nb - pad))) ((s.w.nb + pad) / 8) →
    RoomFor s out.length →
    exec .flush s = .next { s with
      sink := { s.sink with buf := s.sink.buf.writeList (s.sink.used + s.w.pos) out }
      w := { s.w with acc := 0#32, nb := 0, pos := s.w.pos + out.length } }

/-- Rules R141, R177, R185: how many bytes a command that flushes writes when it does not fault: between k and 2k for the k bytes
it flushes. -/
def Obligations.FlushedByteCounts : Prop :=
  ∀ (i : Instr) (s t : State), flushingCommand i = true → WriterReady s → exec i s = .next t → Running t →
    (i ≠ .flush → s.w.nb / 8 ≤ t.w.pos - s.w.pos ∧ t.w.pos - s.w.pos ≤ 2 * (s.w.nb / 8)) ∧
    (i = .flush → (s.w.nb + 7) / 8 ≤ t.w.pos - s.w.pos ∧ t.w.pos - s.w.pos ≤ 2 * ((s.w.nb + 7) / 8))

/-- Rules R10, R62, R141: in what a flush writes without faulting, every 0xFF is followed at the next address by 0x00. -/
def Obligations.EveryFlushedMarkerIsStuffed : Prop :=
  ∀ (i : Instr) (s t : State) (a : Nat), flushingCommand i = true → WriterReady s → exec i s = .next t → Running t →
    s.sink.used + s.w.pos ≤ a → a < s.sink.used + t.w.pos → t.sink.buf.read a = some 0xFF#8 →
    a + 1 < s.sink.used + t.w.pos ∧ t.sink.buf.read (a + 1) = some 0x00#8

/-- Rules R94, R160, R161: PUTBYTE writes its byte at the cursor, raw, and advances the cursor by one. -/
def Obligations.PutByteStoresRaw : Prop :=
  ∀ (s : State) (b : Byte), WriterReady s → WriterIdle s → RoomFor s 1 →
    exec (.putByte b) s = .next { s with
      sink := { s.sink with buf := s.sink.buf.write (s.sink.used + s.w.pos) b }
      w := { s.w with pos := s.w.pos + 1 } }

/-- Rules R65, R94, R165: PUTBYTES writes its payload at the cursor, in order, raw; a payload of no bytes writes nothing and asks
nothing of the reservation or of the sink. -/
def Obligations.PutBytesStoresRaw : Prop :=
  ∀ (s : State) (size : Word) (p : List Byte), p.length = size.toNat → WriterReady s → WriterIdle s →
    RoomFor s p.length →
    exec (.putBytes size p) s = .next { s with
      sink := { s.sink with buf := s.sink.buf.writeList (s.sink.used + s.w.pos) p }
      w := { s.w with pos := s.w.pos + p.length } }

/-- Rules R160, R162, R165: PUTBYTE and PUTBYTES, a payload of no bytes included, raise PENDING_BITS whenever bits are pending. -/
def Obligations.PendingBitsFault : Prop :=
  ∀ s : State, WriterReady s → s.w.nb ≠ 0 →
    (∀ b, exec (.putByte b) s = .next (s.faulted .pendingBits .writer 0x6#4)) ∧
    ∀ size p, p.length = size.toNat → exec (.putBytes size p) s = .next (s.faulted .pendingBits .writer 0x7#4)

/-- Rules R94, R165, R166, R212: a raw write past the reservation keeps the bytes that fit and raises OVERRUN at the first one
that does not. -/
def Obligations.RawOverrunKeepsEarlierBytes : Prop :=
  ∀ s : State, Inv s → WriterReady s → WriterIdle s →
    (s.w.pos = s.w.rsv → ∀ b, exec (.putByte b) s = .next (s.faulted .overrun .writer 0x6#4)) ∧
    ∀ size p, p.length = size.toNat → s.w.rsv < s.w.pos + p.length →
      exec (.putBytes size p) s = .next { s with
        sink := { s.sink with
          buf := s.sink.buf.writeList (s.sink.used + s.w.pos) (p.take (s.w.rsv - s.w.pos)) }
        w := { s.w with pos := s.w.rsv }
        fault := faultWord .overrun .writer 0x7#4 }

/-- Rules R94, R141, R212: a flush past the reservation keeps the bytes that fit, keeps the completed turns of the loop and raises
OVERRUN; nothing is appended. -/
def Obligations.FlushOverrunKeepsEarlierBytes : Prop :=
  ∀ (i : Instr) (s : State), Inv s → WriterReady s →
    (i = .flushBits ∨ ∃ v n, codeOperands i = some (.writer, v, n) ∧ CodeOk v n) →
    s.w.rsv < s.w.pos + (flushOutput s.w.acc (s.w.nb / 8)).length →
    ∃ j, j < s.w.nb / 8 ∧
      (flushOutput s.w.acc j).length ≤ s.w.rsv - s.w.pos ∧
      s.w.rsv - s.w.pos < (flushOutput s.w.acc (j + 1)).length ∧
      exec i s = .next { s with
        sink := { s.sink with
          buf := s.sink.buf.writeList (s.sink.used + s.w.pos)
            ((flushOutput s.w.acc (s.w.nb / 8)).take (s.w.rsv - s.w.pos)) }
        w := { s.w with acc := s.w.acc <<< (8 * j), nb := s.w.nb - 8 * j, pos := s.w.rsv }
        fault := faultWord .overrun .writer (opcodeOf i) }

/-- Rules R94, R141, R175, R212: a FLUSH past the reservation keeps its pad bits, the bytes that fit and the completed turns of the
loop, and raises OVERRUN. -/
def Obligations.PaddedOverrunKeepsEarlierBytes : Prop :=
  ∀ (s : State) (pad : Nat) (acc : Word), Inv s → WriterReady s →
    pad = (8 - s.w.nb % 8) % 8 →
    acc = s.w.acc ||| (BitVec.ofNat 32 (2 ^ pad - 1) <<< (32 - s.w.nb - pad)) →
    s.w.rsv < s.w.pos + (flushOutput acc ((s.w.nb + pad) / 8)).length →
    ∃ j, j < (s.w.nb + pad) / 8 ∧
      (flushOutput acc j).length ≤ s.w.rsv - s.w.pos ∧
      s.w.rsv - s.w.pos < (flushOutput acc (j + 1)).length ∧
      exec .flush s = .next { s with
        sink := { s.sink with
          buf := s.sink.buf.writeList (s.sink.used + s.w.pos)
            ((flushOutput acc ((s.w.nb + pad) / 8)).take (s.w.rsv - s.w.pos)) }
        w := { s.w with acc := acc <<< (8 * j), nb := s.w.nb + pad - 8 * j, pos := s.w.rsv }
        fault := faultWord .overrun .writer 0x9#4 }

/-- Rules R52, R65, R94: the frame of the commands that emit bytes, in every outcome: all but W.ACC, W.NB, W.POS, FAULT and the
bytes from the cursor before up to the cursor after is unchanged. PUTBYTE and PUTBYTES leave the pending bits too. -/
def Obligations.EmittingCommandFrame : Prop :=
  ∀ (i : Instr) (s t : State), emittingCommand i = true → exec i s = .next t →
    WriterFrame s t ∧
    (flushingCommand i = false → t.w.acc = s.w.acc ∧ t.w.nb = s.w.nb) ∧
    (Running t → t.fault = s.fault)

/-- Rules R52, R146: the frame of RESERVE and FINALIZE, in every outcome: the counter, the accumulator, the pending bits, the
configuration and what was delivered are unchanged, and FAULT is unless the command faults. -/
def Obligations.CommittingCommandFrame : Prop :=
  ∀ (i : Instr) (s t : State), (i = .finalize ∨ ∃ size, i = .reserve size) → exec i s = .next t →
    t.c = s.c ∧ t.w.acc = s.w.acc ∧ t.w.nb = s.w.nb ∧ t.cfg = s.cfg ∧ t.port = s.port ∧
      t.delivered = s.delivered ∧ (Running t → t.fault = s.fault)

/-! ### The counter -/

/-- Rules R143, R191, R192, R194: CADDBITS and CADDPACKEDCODE count the complete pending bytes with their escapes and append their
code, and touch nothing but C. -/
def Obligations.AddCodeCountsThenAppends : Prop :=
  ∀ (i : Instr) (s : State) (v : Word) (n : Nat), codeOperands i = some (.counter, v, n) → CodeOk v n → Running s →
    s.c.total + (flushOutput s.c.acc (s.c.nb / 8)).length < 2 ^ 64 →
    exec i s = .next { s with
      c := {
        acc := (s.c.acc <<< (8 * (s.c.nb / 8))) ||| (v <<< (32 - (s.c.nb % 8 + n)))
        nb := s.c.nb % 8 + n
        total := s.c.total + (flushOutput s.c.acc (s.c.nb / 8)).length } }

/-- Rules R191, R199, R212: a count above 2^64 − 1 raises COUNTER_OVERFLOW instead of wrapping and keeps the completed turns of
the loop. -/
def Obligations.CounterOverflowKeepsEarlierTurns : Prop :=
  ∀ (i : Instr) (s : State) (v : Word) (n : Nat), codeOperands i = some (.counter, v, n) → CodeOk v n → Running s →
    s.c.total < 2 ^ 64 → 2 ^ 64 ≤ s.c.total + (flushOutput s.c.acc (s.c.nb / 8)).length →
    ∃ j, j < s.c.nb / 8 ∧
      s.c.total + (flushOutput s.c.acc j).length < 2 ^ 64 ∧
      2 ^ 64 ≤ s.c.total + (flushOutput s.c.acc (j + 1)).length ∧
      exec i s = .next { s with
        c := {
          acc := s.c.acc <<< (8 * j)
          nb := s.c.nb - 8 * j
          total := s.c.total + (flushOutput s.c.acc j).length }
        fault := faultWord .counterOverflow .counter (opcodeOf i) }

/-- Rules R196, R197, R199: CSIZE answers the flushed total and the bytes a FLUSH of the pending bits would emit, and changes
nothing but RESP; above 2^64 − 1 it raises COUNTER_OVERFLOW. -/
def Obligations.CsizePredictsFlush : Prop :=
  ∀ (s : State) (pad : Nat) (tail : List Byte), Inv s → Running s →
    pad = (8 - s.c.nb % 8) % 8 →
    tail = flushOutput (s.c.acc ||| (BitVec.ofNat 32 (2 ^ pad - 1) <<< (32 - s.c.nb - pad))) ((s.c.nb + pad) / 8) →
    (s.c.total + tail.length < 2 ^ 64 →
      exec .csize s = .next { s with resp := BitVec.ofNat 64 (s.c.total + tail.length) }) ∧
    (2 ^ 64 ≤ s.c.total + tail.length →
      exec .csize s = .next (s.faulted .counterOverflow .counter 0xD#4)) ∧
    tail.length ≤ 8

/-- Rules R196, R198: where the counter and the writer hold the same bits, CSIZE answers the counter's total and exactly the number
of bytes FLUSH then writes. -/
def Obligations.CsizeEqualsFlushedBytes : Prop :=
  ∀ s : State, Inv s → WriterReady s → s.c.acc = s.w.acc → s.c.nb = s.w.nb →
    RoomFor s (2 * ((s.w.nb + 7) / 8)) → s.c.total + 8 < 2 ^ 64 →
    ∃ t u, exec .csize s = .next t ∧ exec .flush s = .next u ∧ Running u ∧
      t.resp.toNat = s.c.total + (u.w.pos - s.w.pos)

/-- Rule R190: no counter command writes W, S or what belongs to them, and no writer or sink command writes C. -/
def Obligations.CounterIsIndependent : Prop :=
  ∀ (i : Instr) (s t : State), exec i s = .next t →
    (counterCommand i = true → CounterFrame s t) ∧ (counterCommand i = false → t.c = s.c)

/-- Rule R190: what a counter command does to C, RESP and FAULT does not depend on W or S. -/
def Obligations.CounterReadsNoWriterOrSink : Prop :=
  ∀ (i : Instr) (s : State) (w : Writer) (sink : Sink) (t : State), counterCommand i = true →
    exec i s = .next t → exec i { s with w := w, sink := sink } = .next { t with w := w, sink := sink }

/-- Rule R198: parity. Over an empty stream, with a reservation of twice the bytes of a sequence of codes, the counter's CSIZE after
the codes is the length of the writer's sink view after the same codes, FLUSH and a FINALIZE that returns 1. -/
def Obligations.CounterPredictsStreamLength : Prop :=
  ∀ (codes : List (Word × BitVec 8)) (s : State), Inv s → WriterReady s →
    (∀ x ∈ codes, CodeOk x.1 x.2.toNat) →
    s.c = { acc := 0#32, nb := 0, total := 0 } →
    s.w.acc = 0#32 → s.w.nb = 0 → s.w.pos = 0 → s.sink.state = .opened → s.sink.used = 0 →
    2 * (((codes.map fun x => x.2.toNat).sum + 7) / 8) ≤ s.w.rsv →
    ∃ counted sized written flushed final,
      execAll (codes.map fun x => .caddBits x.1 x.2) s = .next counted ∧
      exec .csize counted = .next sized ∧
      execAll (codes.map fun x => .putBits x.1 x.2) sized = .next written ∧
      exec .flush written = .next flushed ∧
      exec .finalize flushed = .next final ∧
      (final.resp = 1#64 → ∃ view, sinkView final = some view ∧ view.len = sized.resp.toNat)

/-! ### The whole machine -/

/-- Rules R32 to R45, R240: the invariant holds right after power-on, for every configuration, and so at reset. -/
def Obligations.PowerOnMeetsInvariant : Prop := (∀ cfg, Inv (State.powerOn cfg)) ∧ Inv State.reset

/-- Rules R32 to R45, R68, R84, R85, R94: every step, of every event, keeps the invariant. -/
def Obligations.StepKeepsInvariant : Prop := ∀ s t : State, Inv s → step s = .next t → Inv t

/-- Rules R3, R263: from every state that meets the invariant, every command and every step answers a next state: the model never
stops there. -/
def Obligations.InvariantNeverStops : Prop :=
  ∀ s : State, Inv s → (∀ i, ∃ t, exec i s = .next t) ∧ ∃ t, step s = .next t

/-- Rules R13, R41: no command and no event but a power-on reset changes the configuration. -/
def Obligations.ConfigurationIsConstant : Prop :=
  ∀ s t : State, (∀ cfg rest, s.port ≠ .rstAll cfg :: rest) → step s = .next t → t.cfg = s.cfg

/-- Rules R6, R43, R69: no command but SRESET rewrites or drops a committed byte of a sink that is still OPEN or FINALIZED after
it. -/
def Obligations.CommittedBytesAreKept : Prop :=
  ∀ (i : Instr) (s t : State), Inv s → exec i s = .next t → i ≠ .sreset →
    t.sink.state = .opened ∨ t.sink.state = .finalized →
    s.sink.used ≤ t.sink.used ∧ ∀ a, a < s.sink.used → t.sink.buf.read a = s.sink.buf.read a

/-- Rule R83: exactly which commands ask the oracle, and how often where they succeed. -/
def Obligations.OracleDrawnExactly : Prop :=
  ∀ (i : Instr) (s t : State), Inv s → WriterReady s → s.sink.state = .opened → exec i s = .next t →
    (i ≠ .finalize → (∀ size, i ≠ .reserve size) → t.oracle = s.oracle) ∧
    (∀ size, i = .reserve size → s.cfg.sinkKind = .growable →
      s.sink.used + s.w.pos + size.toNat ≤ s.sink.cap → t.oracle = s.oracle) ∧
    (∀ size, i = .reserve size → s.cfg.sinkKind = .growable → s.sink.cap < s.sink.used + s.w.pos + size.toNat →
      t.w.mode = .active → t.oracle.drawn = s.oracle.drawn + 1) ∧
    (∀ size, i = .reserve size → s.cfg.sinkKind = .external → t.w.mode = .active →
      t.oracle.drawn = s.oracle.drawn + 1) ∧
    (i = .finalize → t.sink.state = .finalized →
      t.oracle.drawn = s.oracle.drawn + (if s.cfg.sinkKind = .growable then 1 else 2))

/-- Rules R46, R49, R50: only RESERVE, FINALIZE, CSIZE and SRELEASE write RESP, and no command touches the command port. -/
def Obligations.ResponseWriters : Prop :=
  ∀ (i : Instr) (s t : State), exec i s = .next t →
    t.port = s.port ∧
    (i ≠ .finalize → i ≠ .csize → i ≠ .srelease → (∀ size, i ≠ .reserve size) → t.resp = s.resp) ∧
    (i ≠ .srelease → t.delivered = s.delivered)

/-- Rules R36, R42, R84, R148: no command makes an inactive writer active again, and no command but SRESET takes a sink out of
BROKEN. -/
def Obligations.TerminalStatesStay : Prop :=
  ∀ (i : Instr) (s t : State), exec i s = .next t →
    (s.w.mode ≠ .active → t.w.mode = s.w.mode) ∧
    (s.sink.state = .broken → i ≠ .sreset → t.sink.state = .broken)

/-- Rules R47, R48, R211: the fields of STATUS and of a latched FAULT, with the numbers the spec gives each mode, sink state, kind,
cause and unit. -/
def Obligations.StatusAndFaultFields : Prop :=
  (∀ s : State, s.w.nb < 32 → s.c.nb < 32 →
    ((statusWord s).extractLsb' 0 5).toNat = s.w.nb ∧
    (statusWord s).extractLsb' 5 2 = (match s.w.mode with | .active => 0#2 | .failed => 1#2 | .done => 2#2) ∧
    (statusWord s).extractLsb' 7 1 = 0#1 ∧
    ((statusWord s).extractLsb' 8 5).toNat = s.c.nb ∧
    (statusWord s).extractLsb' 13 2 =
      (match s.sink.state with | .opened => 0#2 | .finalized => 1#2 | .released => 2#2 | .broken => 3#2) ∧
    (statusWord s).extractLsb' 15 1 = (match s.cfg.sinkKind with | .growable => 0#1 | .external => 1#1) ∧
    (statusWord s).extractLsb' 16 1 = s.fault.extractLsb' 0 1 ∧
    (statusWord s).extractLsb' 17 15 = 0#15) ∧
  ∀ (cause : Cause) (unit : BlockUnit) (op : Opcode),
    (faultWord cause unit op).extractLsb' 0 1 = 1#1 ∧
    (faultWord cause unit op).extractLsb' 1 4 =
      (match cause with
        | .illegalCommand => 1#4
        | .writerNotActive => 2#4
        | .nbitsRange => 3#4
        | .bitsOutsideWidth => 4#4
        | .pendingBits => 5#4
        | .overrun => 6#4
        | .sinkNotOpen => 7#4
        | .releaseInvalid => 8#4
        | .counterOverflow => 9#4) ∧
    (faultWord cause unit op).extractLsb' 5 2 =
      (match unit with | .writer => 0#2 | .counter => 1#2 | .sink => 2#2 | .decoder => 3#2) ∧
    (faultWord cause unit op).extractLsb' 7 4 = op

/-- Rules R72, R85, R86: what the sink view shows in each sink state, byte for byte: the committed prefix of an OPEN growable sink,
the whole of S.BUF of an OPEN external sink and, on either backend, of a FINALIZED one, whose S.USED bytes all have a known
value. -/
def Obligations.SinkViewShowsStream : Prop :=
  ∀ s : State, Inv s →
    (s.sink.state = .opened → s.cfg.sinkKind = .growable →
      ∃ v, sinkView s = some v ∧ v.len = s.sink.used ∧
        ∀ a, v.read a = if a < s.sink.used then s.sink.buf.read a else none) ∧
    (s.sink.state = .opened → s.cfg.sinkKind = .external → sinkView s = some s.sink.buf) ∧
    (s.sink.state = .finalized →
      sinkView s = some s.sink.buf ∧ s.sink.buf.len = s.sink.used ∧
        ∀ a, a < s.sink.used → (s.sink.buf.read a).isSome) ∧
    (s.sink.state = .released → sinkView s = some { len := 0, cells := [] }) ∧
    (s.sink.state = .broken → sinkView s = none)

/-- Rules R62, R65, R69, R75, R77, R79: what the operations on the byte array leave to read. A write changes the bytes it writes, in
order, and no other; a trim to `used` bytes keeps those and ends there; a resize keeps the committed bytes, and every other byte
then holds any value. -/
def Obligations.OutputBytesReadBack : Prop :=
  (∀ (m : Memory) (addr : Nat) (b : Byte) (a : Nat),
    (m.write addr b).len = m.len ∧ (m.write addr b).read a = if a = addr then some b else m.read a) ∧
  (∀ (m : Memory) (addr : Nat) (bs : List Byte) (a : Nat),
    (m.writeList addr bs).len = m.len ∧
    (m.writeList addr bs).read a = if addr ≤ a ∧ a < addr + bs.length then bs[a - addr]? else m.read a) ∧
  ∀ (m : Memory) (used len a : Nat),
    (m.take used).len = used ∧ (m.take used).read a = (if a < used then m.read a else none) ∧
    (m.regrow used len).len = len ∧ (m.regrow used len).read a = if a < used then m.read a else none
end

