-- ==== Sys2Proof/Laws/Memory.lean ====
section
/-! SUPPORT. Laws of the byte array: reading after writing, and that every memory operation keeps the canonical form. -/

namespace Sys2Proof.Machine

/-! ### Cells -/

/-- Looking up past one cell, as a plain conditional. -/
theorem lookup_cell (x : Nat) (c : Host.Cell) (cs : List Host.Cell) :
    (c :: cs).lookup x = if x = c.1 then some c.2 else cs.lookup x := by
  obtain ⟨k, v⟩ := c
  by_cases h : x = k
  · simp [h]
  · simp [List.lookup_cons, h, beq_false_of_ne h]

theorem lookup_writeCell_same (a : Nat) (b : Byte) (cs : List Host.Cell) :
    (writeCell a b cs).lookup a = some b := by
  induction cs with
  | nil => simp [writeCell]
  | cons c cs ih =>
    unfold writeCell
    split
    · simp
    · split
      · simp
      · rename_i _ hne
        rw [lookup_cell, if_neg hne, ih]

theorem lookup_writeCell_other {a x : Nat} (h : x ≠ a) (b : Byte) (cs : List Host.Cell) :
    (writeCell a b cs).lookup x = cs.lookup x := by
  induction cs with
  | nil => simp [writeCell, lookup_cell, h]
  | cons c cs ih =>
    unfold writeCell
    split
    · rw [lookup_cell, if_neg h]
    · split
      · rename_i _ heq
        rw [lookup_cell, if_neg h, lookup_cell, if_neg (heq ▸ h)]
      · rw [lookup_cell, ih, lookup_cell]

theorem mem_writeCell {a : Nat} {b : Byte} {cs : List Host.Cell} {d : Host.Cell}
    (h : d ∈ writeCell a b cs) : d = (a, b) ∨ d ∈ cs := by
  induction cs with
  | nil => simpa [writeCell] using h
  | cons c cs ih =>
    unfold writeCell at h
    split at h
    · simpa using h
    · split at h
      · rcases List.mem_cons.1 h with h | h
        · exact .inl h
        · exact .inr (List.mem_cons_of_mem _ h)
      · rcases List.mem_cons.1 h with h | h
        · exact .inr (h ▸ List.mem_cons_self)
        · exact (ih h).imp id (List.mem_cons_of_mem _)

theorem writeCell_sorted (a : Nat) (b : Byte) {cs : List Host.Cell} (h : cs.Pairwise (fun x y => x.1 < y.1)) :
    (writeCell a b cs).Pairwise (fun x y => x.1 < y.1) := by
  induction cs with
  | nil => simp [writeCell]
  | cons c cs ih =>
    obtain ⟨hc, hcs⟩ := List.pairwise_cons.1 h
    unfold writeCell
    split
    · rename_i hlt
      refine List.pairwise_cons.2 ⟨fun d hd => ?_, h⟩
      rcases List.mem_cons.1 hd with rfl | hd
      · exact hlt
      · exact lt_trans hlt (hc d hd)
    · split
      · rename_i _ heq
        exact List.pairwise_cons.2 ⟨fun d hd => heq ▸ hc d hd, hcs⟩
      · refine List.pairwise_cons.2 ⟨fun d hd => ?_, ih hcs⟩
        rcases mem_writeCell hd with rfl | hd
        · show c.1 < a
          omega
        · exact hc d hd

theorem lookup_filter_below (a n : Nat) (cs : List Host.Cell) :
    (cs.filter fun c => decide (c.1 < n)).lookup a = if a < n then cs.lookup a else none := by
  induction cs with
  | nil => simp
  | cons c cs ih =>
    rw [List.filter_cons]
    by_cases hc : c.1 < n
    · rw [if_pos (by simpa using hc), lookup_cell, lookup_cell, ih]
      split <;> split <;> first | rfl | omega
    · rw [if_neg (by simpa using hc), lookup_cell, ih]
      by_cases ha : a < n
      · rw [if_pos ha, if_pos ha, if_neg (by omega)]
      · rw [if_neg ha, if_neg ha]

/-! ### Reads -/

@[simp] theorem Memory.read_empty (a : Nat) : Memory.empty.read a = none := rfl

@[simp] theorem Memory.read_unknown (n a : Nat) : (Memory.unknown n).read a = none := rfl

@[simp] theorem Memory.read_write_same (m : Memory) (a : Nat) (b : Byte) : (m.write a b).read a = some b :=
  lookup_writeCell_same a b m.cells

theorem Memory.read_write_other (m : Memory) {a x : Nat} (h : x ≠ a) (b : Byte) : (m.write a b).read x = m.read x :=
  lookup_writeCell_other h b m.cells

theorem Memory.read_take (m : Memory) (n a : Nat) : (m.take n).read a = if a < n then m.read a else none :=
  lookup_filter_below a n m.cells

theorem Memory.read_regrow (m : Memory) (n len a : Nat) :
    (m.regrow n len).read a = if a < n then m.read a else none :=
  lookup_filter_below a n m.cells

/-! ### Lengths -/

@[simp] theorem Memory.len_write (m : Memory) (a : Nat) (b : Byte) : (m.write a b).len = m.len := rfl
@[simp] theorem Memory.len_take (m : Memory) (n : Nat) : (m.take n).len = n := rfl
@[simp] theorem Memory.len_regrow (m : Memory) (n len : Nat) : (m.regrow n len).len = len := rfl
@[simp] theorem Memory.len_empty : Memory.empty.len = 0 := rfl
@[simp] theorem Memory.len_unknown (n : Nat) : (Memory.unknown n).len = n := rfl

@[simp] theorem Memory.len_writeList (m : Memory) (a : Nat) (bs : List Byte) : (m.writeList a bs).len = m.len := by
  induction bs generalizing m a with
  | nil => rfl
  | cons b bs ih => simp [Memory.writeList, ih]

/-! ### The canonical form -/

theorem Memory.empty_wf : Memory.empty.wf := by decide

theorem Memory.unknown_wf (n : Nat) : (Memory.unknown n).wf :=
  ⟨List.Pairwise.nil, fun _ h => absurd h List.not_mem_nil⟩

theorem Memory.write_wf {m : Memory} {a : Nat} (b : Byte) (h : m.wf) (ha : a < m.len) : (m.write a b).wf := by
  refine ⟨writeCell_sorted a b h.1, fun c hc => ?_⟩
  rcases mem_writeCell hc with rfl | hc
  · exact ha
  · exact h.2 c hc

theorem Memory.take_wf {m : Memory} (n : Nat) (h : m.wf) : (m.take n).wf :=
  ⟨h.1.filter _, fun _ hc => of_decide_eq_true (List.mem_filter.1 hc).2⟩

theorem Memory.regrow_wf {m : Memory} {n len : Nat} (h : m.wf) (hn : n ≤ len) : (m.regrow n len).wf :=
  ⟨h.1.filter _, fun _ hc => lt_of_lt_of_le (of_decide_eq_true (List.mem_filter.1 hc).2) hn⟩

/-! ### Consecutive writes -/

@[simp] theorem Memory.writeList_nil (m : Memory) (a : Nat) : m.writeList a [] = m := rfl

theorem Memory.writeList_append (m : Memory) (a : Nat) (bs cs : List Byte) :
    m.writeList a (bs ++ cs) = (m.writeList a bs).writeList (a + bs.length) cs := by
  induction bs generalizing m a with
  | nil => simp
  | cons b bs ih =>
    rw [List.cons_append, Memory.writeList, ih, Memory.writeList, List.length_cons]
    congr 1
    omega

theorem Memory.read_writeList_outside (m : Memory) {a x : Nat} (bs : List Byte) (h : x < a ∨ a + bs.length ≤ x) :
    (m.writeList a bs).read x = m.read x := by
  induction bs generalizing m a with
  | nil => rfl
  | cons b bs ih =>
    simp only [List.length_cons] at h
    rw [Memory.writeList, ih _ (by omega), Memory.read_write_other _ (by omega)]

theorem Memory.read_writeList_inside (m : Memory) (a : Nat) (bs : List Byte) {k : Nat} (h : k < bs.length) :
    (m.writeList a bs).read (a + k) = some bs[k] := by
  induction bs generalizing m a k with
  | nil => simp at h
  | cons b bs ih =>
    cases k with
    | zero =>
      rw [Memory.writeList, Memory.read_writeList_outside _ _ (by omega)]
      simp
    | succ k =>
      have := ih (m.write a b) (a + 1) (k := k) (by simpa using h)
      rw [Memory.writeList, show a + (k + 1) = a + 1 + k by omega, this]
      rfl

theorem Memory.writeList_wf {m : Memory} {a : Nat} (bs : List Byte) (h : m.wf) (ha : a + bs.length ≤ m.len) :
    (m.writeList a bs).wf := by
  induction bs generalizing m a with
  | nil => exact h
  | cons b bs ih =>
    simp only [List.length_cons] at ha
    exact ih (Memory.write_wf b h (by omega)) (by simp only [Memory.len_write]; omega)

/-! ### Known bytes -/

theorem Memory.Known.mono {m : Memory} {lo hi lo' hi' : Nat} (h : m.Known lo hi) (hl : lo ≤ lo') (hh : hi' ≤ hi) :
    m.Known lo' hi' := fun a h1 h2 => h a (le_trans hl h1) (lt_of_lt_of_le h2 hh)

theorem Memory.Known.join {m : Memory} {lo mid hi : Nat} (h1 : m.Known lo mid) (h2 : m.Known mid hi) :
    m.Known lo hi := fun a hl hh => if h : a < mid then h1 a hl h else h2 a (by omega) hh

theorem Memory.known_nothing (m : Memory) (a : Nat) : m.Known a a := fun _ h1 h2 => absurd h2 (by omega)

theorem Memory.Known.write {m : Memory} {lo hi : Nat} (h : m.Known lo hi) (a : Nat) (b : Byte) :
    (m.write a b).Known lo hi := fun x hl hh => by
  by_cases hx : x = a
  · subst hx; simp
  · rw [Memory.read_write_other _ hx]; exact h x hl hh

theorem Memory.Known.take {m : Memory} {lo hi : Nat} (h : m.Known lo hi) (n : Nat) (hn : hi ≤ n) :
    (m.take n).Known lo hi := fun x hl hh => by
  rw [Memory.read_take, if_pos (by omega)]; exact h x hl hh

theorem Memory.Known.regrow {m : Memory} {lo hi : Nat} (h : m.Known lo hi) (n len : Nat) (hn : hi ≤ n) :
    (m.regrow n len).Known lo hi := fun x hl hh => by
  rw [Memory.read_regrow, if_pos (by omega)]; exact h x hl hh

end Sys2Proof.Machine
end

