-- ==== Sys2Proof/Laws/State.lean ====
section
/-! SUPPORT. One lemma per field per state update, each true by rfl, so that no proof unfolds a record update. -/

namespace Sys2Proof.Machine

/-! ### State.withBits -/

@[simp] theorem State.withBits_cfg (s : State) (a : Word) (n : Nat) : (s.withBits a n).cfg = s.cfg := rfl
@[simp] theorem State.withBits_w (s : State) (a : Word) (n : Nat) : (s.withBits a n).w = { s.w with acc := a, nb := n } := rfl
@[simp] theorem State.withBits_c (s : State) (a : Word) (n : Nat) : (s.withBits a n).c = s.c := rfl
@[simp] theorem State.withBits_sink (s : State) (a : Word) (n : Nat) : (s.withBits a n).sink = s.sink := rfl
@[simp] theorem State.withBits_resp (s : State) (a : Word) (n : Nat) : (s.withBits a n).resp = s.resp := rfl
@[simp] theorem State.withBits_fault (s : State) (a : Word) (n : Nat) : (s.withBits a n).fault = s.fault := rfl
@[simp] theorem State.withBits_port (s : State) (a : Word) (n : Nat) : (s.withBits a n).port = s.port := rfl
@[simp] theorem State.withBits_delivered (s : State) (a : Word) (n : Nat) : (s.withBits a n).delivered = s.delivered := rfl
@[simp] theorem State.withBits_oracle (s : State) (a : Word) (n : Nat) : (s.withBits a n).oracle = s.oracle := rfl

/-! ### State.withCounterBits -/

@[simp] theorem State.withCounterBits_cfg (s : State) (a : Word) (n : Nat) : (s.withCounterBits a n).cfg = s.cfg := rfl
@[simp] theorem State.withCounterBits_w (s : State) (a : Word) (n : Nat) : (s.withCounterBits a n).w = s.w := rfl
@[simp] theorem State.withCounterBits_c (s : State) (a : Word) (n : Nat) : (s.withCounterBits a n).c = { s.c with acc := a, nb := n } := rfl
@[simp] theorem State.withCounterBits_sink (s : State) (a : Word) (n : Nat) : (s.withCounterBits a n).sink = s.sink := rfl
@[simp] theorem State.withCounterBits_resp (s : State) (a : Word) (n : Nat) : (s.withCounterBits a n).resp = s.resp := rfl
@[simp] theorem State.withCounterBits_fault (s : State) (a : Word) (n : Nat) : (s.withCounterBits a n).fault = s.fault := rfl
@[simp] theorem State.withCounterBits_port (s : State) (a : Word) (n : Nat) : (s.withCounterBits a n).port = s.port := rfl
@[simp] theorem State.withCounterBits_delivered (s : State) (a : Word) (n : Nat) : (s.withCounterBits a n).delivered = s.delivered := rfl
@[simp] theorem State.withCounterBits_oracle (s : State) (a : Word) (n : Nat) : (s.withCounterBits a n).oracle = s.oracle := rfl

/-! ### State.withStored -/

@[simp] theorem State.withStored_cfg (s : State) (b : Byte) : (s.withStored b).cfg = s.cfg := rfl
@[simp] theorem State.withStored_w (s : State) (b : Byte) : (s.withStored b).w = { s.w with pos := s.w.pos + 1 } := rfl
@[simp] theorem State.withStored_c (s : State) (b : Byte) : (s.withStored b).c = s.c := rfl
@[simp] theorem State.withStored_sink (s : State) (b : Byte) : (s.withStored b).sink = { s.sink with buf := s.sink.buf.write (s.sink.used + s.w.pos) b } := rfl
@[simp] theorem State.withStored_resp (s : State) (b : Byte) : (s.withStored b).resp = s.resp := rfl
@[simp] theorem State.withStored_fault (s : State) (b : Byte) : (s.withStored b).fault = s.fault := rfl
@[simp] theorem State.withStored_port (s : State) (b : Byte) : (s.withStored b).port = s.port := rfl
@[simp] theorem State.withStored_delivered (s : State) (b : Byte) : (s.withStored b).delivered = s.delivered := rfl
@[simp] theorem State.withStored_oracle (s : State) (b : Byte) : (s.withStored b).oracle = s.oracle := rfl

/-! ### State.withOutput -/

@[simp] theorem State.withOutput_cfg (s : State) (bs : List Byte) : (s.withOutput bs).cfg = s.cfg := rfl
@[simp] theorem State.withOutput_w (s : State) (bs : List Byte) : (s.withOutput bs).w = { s.w with pos := s.w.pos + bs.length } := rfl
@[simp] theorem State.withOutput_c (s : State) (bs : List Byte) : (s.withOutput bs).c = s.c := rfl
@[simp] theorem State.withOutput_sink (s : State) (bs : List Byte) : (s.withOutput bs).sink = { s.sink with buf := s.sink.buf.writeList (s.sink.used + s.w.pos) bs } := rfl
@[simp] theorem State.withOutput_resp (s : State) (bs : List Byte) : (s.withOutput bs).resp = s.resp := rfl
@[simp] theorem State.withOutput_fault (s : State) (bs : List Byte) : (s.withOutput bs).fault = s.fault := rfl
@[simp] theorem State.withOutput_port (s : State) (bs : List Byte) : (s.withOutput bs).port = s.port := rfl
@[simp] theorem State.withOutput_delivered (s : State) (bs : List Byte) : (s.withOutput bs).delivered = s.delivered := rfl
@[simp] theorem State.withOutput_oracle (s : State) (bs : List Byte) : (s.withOutput bs).oracle = s.oracle := rfl

/-! ### State.withPort -/

@[simp] theorem State.withPort_cfg (s : State) (p : List Event) : (s.withPort p).cfg = s.cfg := rfl
@[simp] theorem State.withPort_w (s : State) (p : List Event) : (s.withPort p).w = s.w := rfl
@[simp] theorem State.withPort_c (s : State) (p : List Event) : (s.withPort p).c = s.c := rfl
@[simp] theorem State.withPort_sink (s : State) (p : List Event) : (s.withPort p).sink = s.sink := rfl
@[simp] theorem State.withPort_resp (s : State) (p : List Event) : (s.withPort p).resp = s.resp := rfl
@[simp] theorem State.withPort_fault (s : State) (p : List Event) : (s.withPort p).fault = s.fault := rfl
@[simp] theorem State.withPort_port (s : State) (p : List Event) : (s.withPort p).port = p := rfl
@[simp] theorem State.withPort_delivered (s : State) (p : List Event) : (s.withPort p).delivered = s.delivered := rfl
@[simp] theorem State.withPort_oracle (s : State) (p : List Event) : (s.withPort p).oracle = s.oracle := rfl

/-! ### State.withDraw -/

@[simp] theorem State.withDraw_cfg (s : State) : s.withDraw.cfg = s.cfg := rfl
@[simp] theorem State.withDraw_w (s : State) : s.withDraw.w = s.w := rfl
@[simp] theorem State.withDraw_c (s : State) : s.withDraw.c = s.c := rfl
@[simp] theorem State.withDraw_sink (s : State) : s.withDraw.sink = s.sink := rfl
@[simp] theorem State.withDraw_resp (s : State) : s.withDraw.resp = s.resp := rfl
@[simp] theorem State.withDraw_fault (s : State) : s.withDraw.fault = s.fault := rfl
@[simp] theorem State.withDraw_port (s : State) : s.withDraw.port = s.port := rfl
@[simp] theorem State.withDraw_delivered (s : State) : s.withDraw.delivered = s.delivered := rfl
@[simp] theorem State.withDraw_oracle (s : State) : s.withDraw.oracle = oracleNext s.oracle := rfl

/-! ### acknowledge -/

@[simp] theorem acknowledge_cfg (n : Nat) (s : State) : (acknowledge n s).cfg = s.cfg := rfl
@[simp] theorem acknowledge_w (n : Nat) (s : State) : (acknowledge n s).w = s.w := rfl
@[simp] theorem acknowledge_c (n : Nat) (s : State) : (acknowledge n s).c = s.c := rfl
@[simp] theorem acknowledge_sink (n : Nat) (s : State) : (acknowledge n s).sink = { s.sink with used := s.sink.used + n } := rfl
@[simp] theorem acknowledge_resp (n : Nat) (s : State) : (acknowledge n s).resp = s.resp := rfl
@[simp] theorem acknowledge_fault (n : Nat) (s : State) : (acknowledge n s).fault = s.fault := rfl
@[simp] theorem acknowledge_port (n : Nat) (s : State) : (acknowledge n s).port = s.port := rfl
@[simp] theorem acknowledge_delivered (n : Nat) (s : State) : (acknowledge n s).delivered = s.delivered := rfl
@[simp] theorem acknowledge_oracle (n : Nat) (s : State) : (acknowledge n s).oracle = s.oracle := rfl

/-! ### growTo -/

@[simp] theorem growTo_cfg (n : Nat) (s : State) : (growTo n s).cfg = s.cfg := rfl
@[simp] theorem growTo_w (n : Nat) (s : State) : (growTo n s).w = s.w := rfl
@[simp] theorem growTo_c (n : Nat) (s : State) : (growTo n s).c = s.c := rfl
@[simp] theorem growTo_sink (n : Nat) (s : State) : (growTo n s).sink = { s.sink with buf := s.sink.buf.regrow s.sink.used n, cap := n } := rfl
@[simp] theorem growTo_resp (n : Nat) (s : State) : (growTo n s).resp = s.resp := rfl
@[simp] theorem growTo_fault (n : Nat) (s : State) : (growTo n s).fault = s.fault := rfl
@[simp] theorem growTo_port (n : Nat) (s : State) : (growTo n s).port = s.port := rfl
@[simp] theorem growTo_delivered (n : Nat) (s : State) : (growTo n s).delivered = s.delivered := rfl
@[simp] theorem growTo_oracle (n : Nat) (s : State) : (growTo n s).oracle = s.oracle := rfl

/-! ### resizeTo -/

@[simp] theorem resizeTo_cfg (n : Nat) (s : State) : (resizeTo n s).cfg = s.cfg := rfl
@[simp] theorem resizeTo_w (n : Nat) (s : State) : (resizeTo n s).w = s.w := rfl
@[simp] theorem resizeTo_c (n : Nat) (s : State) : (resizeTo n s).c = s.c := rfl
@[simp] theorem resizeTo_sink (n : Nat) (s : State) : (resizeTo n s).sink = { s.sink with buf := s.sink.buf.regrow s.sink.used n } := rfl
@[simp] theorem resizeTo_resp (n : Nat) (s : State) : (resizeTo n s).resp = s.resp := rfl
@[simp] theorem resizeTo_fault (n : Nat) (s : State) : (resizeTo n s).fault = s.fault := rfl
@[simp] theorem resizeTo_port (n : Nat) (s : State) : (resizeTo n s).port = s.port := rfl
@[simp] theorem resizeTo_delivered (n : Nat) (s : State) : (resizeTo n s).delivered = s.delivered := rfl
@[simp] theorem resizeTo_oracle (n : Nat) (s : State) : (resizeTo n s).oracle = s.oracle := rfl

/-! ### breakSink -/

@[simp] theorem breakSink_cfg (s : State) : (breakSink s).cfg = s.cfg := rfl
@[simp] theorem breakSink_w (s : State) : (breakSink s).w = s.w := rfl
@[simp] theorem breakSink_c (s : State) : (breakSink s).c = s.c := rfl
@[simp] theorem breakSink_sink (s : State) : (breakSink s).sink = { s.sink with state := .broken, buf := Memory.unknown (Config.brokenLen s.oracle.breaks) } := rfl
@[simp] theorem breakSink_resp (s : State) : (breakSink s).resp = s.resp := rfl
@[simp] theorem breakSink_fault (s : State) : (breakSink s).fault = s.fault := rfl
@[simp] theorem breakSink_port (s : State) : (breakSink s).port = s.port := rfl
@[simp] theorem breakSink_delivered (s : State) : (breakSink s).delivered = s.delivered := rfl
@[simp] theorem breakSink_oracle (s : State) : (breakSink s).oracle = { s.oracle with breaks := s.oracle.breaks + 1 } := rfl

/-! ### sinkReset -/

@[simp] theorem sinkReset_cfg (s : State) : (sinkReset s).cfg = s.cfg := rfl
@[simp] theorem sinkReset_w (s : State) : (sinkReset s).w = s.w := rfl
@[simp] theorem sinkReset_c (s : State) : (sinkReset s).c = s.c := rfl
@[simp] theorem sinkReset_sink (s : State) : (sinkReset s).sink = { state := .opened, used := 0, cap := 0, buf := Memory.empty } := rfl
@[simp] theorem sinkReset_resp (s : State) : (sinkReset s).resp = s.resp := rfl
@[simp] theorem sinkReset_fault (s : State) : (sinkReset s).fault = s.fault := rfl
@[simp] theorem sinkReset_port (s : State) : (sinkReset s).port = s.port := rfl
@[simp] theorem sinkReset_delivered (s : State) : (sinkReset s).delivered = s.delivered := rfl
@[simp] theorem sinkReset_oracle (s : State) : (sinkReset s).oracle = s.oracle := rfl

/-! ### abandonWriter -/

@[simp] theorem abandonWriter_cfg (s : State) : (abandonWriter s).cfg = s.cfg := rfl
@[simp] theorem abandonWriter_w (s : State) : (abandonWriter s).w = { s.w with mode := if s.w.mode = .active then .failed else s.w.mode } := rfl
@[simp] theorem abandonWriter_c (s : State) : (abandonWriter s).c = s.c := rfl
@[simp] theorem abandonWriter_sink (s : State) : (abandonWriter s).sink = s.sink := rfl
@[simp] theorem abandonWriter_resp (s : State) : (abandonWriter s).resp = s.resp := rfl
@[simp] theorem abandonWriter_fault (s : State) : (abandonWriter s).fault = s.fault := rfl
@[simp] theorem abandonWriter_port (s : State) : (abandonWriter s).port = s.port := rfl
@[simp] theorem abandonWriter_delivered (s : State) : (abandonWriter s).delivered = s.delivered := rfl
@[simp] theorem abandonWriter_oracle (s : State) : (abandonWriter s).oracle = s.oracle := rfl

/-! ### deliver -/

@[simp] theorem deliver_cfg (s : State) : (deliver s).cfg = s.cfg := rfl
@[simp] theorem deliver_w (s : State) : (deliver s).w = s.w := rfl
@[simp] theorem deliver_c (s : State) : (deliver s).c = s.c := rfl
@[simp] theorem deliver_sink (s : State) : (deliver s).sink = { state := .released, used := 0, cap := 0, buf := Memory.empty } := rfl
@[simp] theorem deliver_resp (s : State) : (deliver s).resp = respOfLength s.sink.used := rfl
@[simp] theorem deliver_fault (s : State) : (deliver s).fault = s.fault := rfl
@[simp] theorem deliver_port (s : State) : (deliver s).port = s.port := rfl
@[simp] theorem deliver_delivered (s : State) : (deliver s).delivered = s.delivered ++ [s.sink.buf.take s.sink.used] := rfl
@[simp] theorem deliver_oracle (s : State) : (deliver s).oracle = s.oracle := rfl

/-! ### closeRegion -/

@[simp] theorem closeRegion_cfg (s : State) : (closeRegion s).cfg = s.cfg := rfl
@[simp] theorem closeRegion_w (s : State) : (closeRegion s).w = { s.w with pos := 0, rsv := 0 } := rfl
@[simp] theorem closeRegion_c (s : State) : (closeRegion s).c = s.c := rfl
@[simp] theorem closeRegion_sink (s : State) : (closeRegion s).sink = s.sink := rfl
@[simp] theorem closeRegion_resp (s : State) : (closeRegion s).resp = s.resp := rfl
@[simp] theorem closeRegion_fault (s : State) : (closeRegion s).fault = s.fault := rfl
@[simp] theorem closeRegion_port (s : State) : (closeRegion s).port = s.port := rfl
@[simp] theorem closeRegion_delivered (s : State) : (closeRegion s).delivered = s.delivered := rfl
@[simp] theorem closeRegion_oracle (s : State) : (closeRegion s).oracle = s.oracle := rfl

/-! ### finishWriter -/

@[simp] theorem finishWriter_cfg (b : Bool) (s : State) : (finishWriter b s).cfg = s.cfg := rfl
@[simp] theorem finishWriter_w (b : Bool) (s : State) : (finishWriter b s).w = { s.w with mode := .done } := rfl
@[simp] theorem finishWriter_c (b : Bool) (s : State) : (finishWriter b s).c = s.c := rfl
@[simp] theorem finishWriter_sink (b : Bool) (s : State) : (finishWriter b s).sink = s.sink := rfl
@[simp] theorem finishWriter_resp (b : Bool) (s : State) : (finishWriter b s).resp = respOfBool b := rfl
@[simp] theorem finishWriter_fault (b : Bool) (s : State) : (finishWriter b s).fault = s.fault := rfl
@[simp] theorem finishWriter_port (b : Bool) (s : State) : (finishWriter b s).port = s.port := rfl
@[simp] theorem finishWriter_delivered (b : Bool) (s : State) : (finishWriter b s).delivered = s.delivered := rfl
@[simp] theorem finishWriter_oracle (b : Bool) (s : State) : (finishWriter b s).oracle = s.oracle := rfl

/-! ### powerOnReset -/

@[simp] theorem powerOnReset_cfg (cfg : Config) (s : State) : (powerOnReset cfg s).cfg = cfg := rfl
@[simp] theorem powerOnReset_w (cfg : Config) (s : State) : (powerOnReset cfg s).w = Writer.fresh := rfl
@[simp] theorem powerOnReset_c (cfg : Config) (s : State) : (powerOnReset cfg s).c = Counter.fresh := rfl
@[simp] theorem powerOnReset_sink (cfg : Config) (s : State) : (powerOnReset cfg s).sink = Sink.powerOn cfg := rfl
@[simp] theorem powerOnReset_resp (cfg : Config) (s : State) : (powerOnReset cfg s).resp = 0#64 := rfl
@[simp] theorem powerOnReset_fault (cfg : Config) (s : State) : (powerOnReset cfg s).fault = 0#11 := rfl
@[simp] theorem powerOnReset_port (cfg : Config) (s : State) : (powerOnReset cfg s).port = s.port := rfl
@[simp] theorem powerOnReset_delivered (cfg : Config) (s : State) : (powerOnReset cfg s).delivered = s.delivered := rfl
@[simp] theorem powerOnReset_oracle (cfg : Config) (s : State) : (powerOnReset cfg s).oracle = s.oracle := rfl

/-! ### latchFault -/

@[simp] theorem latchFault_cfg (k : Cause) (u : BlockUnit) (op : Opcode) (s : State) : (latchFault k u op s).cfg = s.cfg := by
  unfold latchFault; split <;> rfl
@[simp] theorem latchFault_w (k : Cause) (u : BlockUnit) (op : Opcode) (s : State) : (latchFault k u op s).w = s.w := by
  unfold latchFault; split <;> rfl
@[simp] theorem latchFault_c (k : Cause) (u : BlockUnit) (op : Opcode) (s : State) : (latchFault k u op s).c = s.c := by
  unfold latchFault; split <;> rfl
@[simp] theorem latchFault_sink (k : Cause) (u : BlockUnit) (op : Opcode) (s : State) : (latchFault k u op s).sink = s.sink := by
  unfold latchFault; split <;> rfl
@[simp] theorem latchFault_resp (k : Cause) (u : BlockUnit) (op : Opcode) (s : State) : (latchFault k u op s).resp = s.resp := by
  unfold latchFault; split <;> rfl
@[simp] theorem latchFault_port (k : Cause) (u : BlockUnit) (op : Opcode) (s : State) : (latchFault k u op s).port = s.port := by
  unfold latchFault; split <;> rfl
@[simp] theorem latchFault_delivered (k : Cause) (u : BlockUnit) (op : Opcode) (s : State) : (latchFault k u op s).delivered = s.delivered := by
  unfold latchFault; split <;> rfl
@[simp] theorem latchFault_oracle (k : Cause) (u : BlockUnit) (op : Opcode) (s : State) : (latchFault k u op s).oracle = s.oracle := by
  unfold latchFault; split <;> rfl

theorem latchFault_fault {s : State} (h : Running s) (k : Cause) (u : BlockUnit) (op : Opcode) :
    latchFault k u op s = { s with fault := faultWord k u op } := by
  rw [latchFault, h]; rfl

/-! ### trimSink -/

@[simp] theorem trimSink_cfg (s : State) : (trimSink s).cfg = s.cfg := by
  unfold trimSink; split <;> rfl
@[simp] theorem trimSink_w (s : State) : (trimSink s).w = s.w := by
  unfold trimSink; split <;> rfl
@[simp] theorem trimSink_c (s : State) : (trimSink s).c = s.c := by
  unfold trimSink; split <;> rfl
@[simp] theorem trimSink_resp (s : State) : (trimSink s).resp = s.resp := by
  unfold trimSink; split <;> rfl
@[simp] theorem trimSink_fault (s : State) : (trimSink s).fault = s.fault := by
  unfold trimSink; split <;> rfl
@[simp] theorem trimSink_port (s : State) : (trimSink s).port = s.port := by
  unfold trimSink; split <;> rfl
@[simp] theorem trimSink_delivered (s : State) : (trimSink s).delivered = s.delivered := by
  unfold trimSink; split <;> rfl
@[simp] theorem trimSink_oracle (s : State) : (trimSink s).oracle = s.oracle := by
  unfold trimSink; split <;> rfl
@[simp] theorem trimSink_sink_state (s : State) : (trimSink s).sink.state = .finalized := by
  unfold trimSink; split <;> rfl
@[simp] theorem trimSink_sink_used (s : State) : (trimSink s).sink.used = s.sink.used := by
  unfold trimSink; split <;> rfl
@[simp] theorem trimSink_sink_buf (s : State) : (trimSink s).sink.buf = s.sink.buf.take s.sink.used := by
  unfold trimSink; split <;> rfl
theorem trimSink_sink_cap (s : State) :
    (trimSink s).sink.cap = if s.cfg.sinkKind = .growable then s.sink.used else s.sink.cap := by
  unfold trimSink; split <;> simp_all

/-! ### Pure appends and pads -/

@[simp] theorem appendCode_eq (v : Word) (n : Nat) (s : State) :
    appendCode v n s = s.withBits (appendBits s.w.acc v (s.w.nb + n)) (s.w.nb + n) := rfl

@[simp] theorem counterAppend_eq (v : Word) (n : Nat) (s : State) :
    counterAppend v n s = s.withCounterBits (appendBits s.c.acc v (s.c.nb + n)) (s.c.nb + n) := rfl

@[simp] theorem padBits_eq (s : State) :
    padBits s = s.withBits (padOnes s.w.acc s.w.nb (padCount s.w.nb)) (s.w.nb + padCount s.w.nb) := rfl

end Sys2Proof.Machine
end

