-- ==== Sys2Proof/Laws/Ops.lean ====
section
/-! SUPPORT. One lemma per shared operation over the registers: what it answers, and under which condition. -/

namespace Sys2Proof.Machine

/-! ### Runs -/

@[simp] theorem Run.go_andThen (s : State) (k : State → Run) : (Run.go s).andThen k = k s := rfl
@[simp] theorem Run.ended_andThen (s : State) (k : State → Run) : (Run.ended s).andThen k = .ended s := rfl
@[simp] theorem Run.stop_andThen (r : Fault) (k : State → Run) : (Run.stop r).andThen k = .stop r := rfl
@[simp] theorem Run.go_outcome (s : State) : (Run.go s).outcome = .next s := rfl
@[simp] theorem Run.ended_outcome (s : State) : (Run.ended s).outcome = .next s := rfl
@[simp] theorem Run.stop_outcome (r : Fault) : (Run.stop r).outcome = .fault r := rfl

/-- Every state a run can leave meets `P`; nothing is said where the model stops. -/
def Run.Leaves (r : Run) (P : State → Prop) : Prop :=
  match r with
  | .go s => P s
  | .ended s => P s
  | .stop _ => True

/-- The model does not stop. -/
def Run.Answers (r : Run) : Prop :=
  match r with
  | .go _ => True
  | .ended _ => True
  | .stop _ => False

theorem Run.Leaves.andThen {r : Run} {P Q : State → Prop} {k : State → Run} (h : r.Leaves P)
    (he : ∀ s, P s → Q s) (hk : ∀ s, P s → (k s).Leaves Q) : (r.andThen k).Leaves Q := by
  cases r with
  | go s => exact hk s h
  | ended s => exact he s h
  | stop f => trivial

theorem Run.Leaves.imp {r : Run} {P Q : State → Prop} (h : r.Leaves P) (hq : ∀ s, P s → Q s) : r.Leaves Q := by
  cases r with
  | go s => exact hq s h
  | ended s => exact hq s h
  | stop f => trivial

theorem Run.Leaves.next {r : Run} {P : State → Prop} (h : r.Leaves P) {t : State} (ht : r.outcome = .next t) : P t := by
  cases r with
  | go s => cases ht; exact h
  | ended s => cases ht; exact h
  | stop f => cases ht

theorem Run.Answers.next {r : Run} (h : r.Answers) : ∃ t, r.outcome = .next t := by
  cases r with
  | go s => exact ⟨s, rfl⟩
  | ended s => exact ⟨s, rfl⟩
  | stop f => exact h.elim

/-! ### Faults and guards -/

@[simp] theorem faultV_faultWord (k : Cause) (u : BlockUnit) (op : Opcode) :
    (faultWord k u op).getLsbD 0 = true := by
  rw [faultWord, BitVec.getLsbD_append]; rfl

theorem faultV_latchFault (k : Cause) (u : BlockUnit) (op : Opcode) (s : State) :
    faultV (latchFault k u op s) = true := by
  unfold latchFault
  split
  · assumption
  · exact faultV_faultWord k u op

theorem whenRunning_running {s : State} (h : Running s) (k : State → Run) : whenRunning s k = (k s).outcome := by
  rw [whenRunning, h]; rfl

theorem whenRunning_faulted {s : State} (h : faultV s = true) (k : State → Run) : whenRunning s k = .next s := by
  rw [whenRunning, h]; rfl

theorem writerGuard_active {s : State} (h : s.w.mode = .active) (op : Opcode) : writerGuard op s = .go s := if_pos h

theorem writerGuard_inactive {s : State} (h : s.w.mode ≠ .active) (op : Opcode) :
    writerGuard op s = raise .writerNotActive .writer op s := if_neg h

theorem shiftRight_eq_zero_iff (v : Word) (n : Nat) : v >>> n = 0#32 ↔ v.toNat < 2 ^ n := by
  rw [← BitVec.toNat_inj, BitVec.toNat_ushiftRight, Nat.shiftRight_eq_div_pow]
  simp [Nat.div_eq_zero_iff]

theorem checkCode_ok {v : Word} {n : Nat} (h : CodeOk v n) (u : BlockUnit) (op : Opcode) (s : State) :
    checkCode u op v n s = .go s := by
  obtain ⟨h1, h2, h3⟩ := h
  rw [checkCode, if_neg (by simp only [Config.nbitsMin, Config.nbitsMax]; omega),
    if_neg (by simpa using (shiftRight_eq_zero_iff v n).2 h3)]

theorem checkCode_range {n : Nat} (h : n < 1 ∨ 24 < n) (v : Word) (u : BlockUnit) (op : Opcode) (s : State) :
    checkCode u op v n s = raise .nbitsRange u op s := if_pos h

theorem checkCode_width {v : Word} {n : Nat} (h1 : 1 ≤ n) (h2 : n ≤ 24) (h3 : 2 ^ n ≤ v.toNat) (u : BlockUnit)
    (op : Opcode) (s : State) : checkCode u op v n s = raise .bitsOutsideWidth u op s := by
  rw [checkCode, if_neg (by simp only [Config.nbitsMin, Config.nbitsMax]; omega),
    if_pos fun h => absurd ((shiftRight_eq_zero_iff v n).1 h) (by omega)]

/-- What CheckCode can answer: it goes on with the state as it was, or has latched one of its two causes. -/
theorem checkCode_cases (u : BlockUnit) (op : Opcode) (v : Word) (n : Nat) (s : State) :
    checkCode u op v n s = .go s ∧ CodeOk v n ∨ checkCode u op v n s = raise .nbitsRange u op s ∨
      checkCode u op v n s = raise .bitsOutsideWidth u op s := by
  by_cases h : n < 1 ∨ 24 < n
  · exact .inr (.inl (checkCode_range h v u op s))
  · by_cases hv : v.toNat < 2 ^ n
    · exact .inl ⟨checkCode_ok ⟨by omega, by omega, hv⟩ u op s, by omega, by omega, hv⟩
    · exact .inr (.inr (checkCode_width (by omega) (by omega) (by omega) u op s))

/-! ### Output at the cursor -/

@[simp] theorem State.withOutput_nil (s : State) : s.withOutput [] = s := rfl

theorem State.withOutput_cons (s : State) (b : Byte) (bs : List Byte) :
    s.withOutput (b :: bs) = (s.withStored b).withOutput bs := by
  simp only [State.withOutput, State.withStored, Memory.writeList, List.length_cons]
  simp only [Nat.add_assoc, Nat.add_comm 1]

theorem State.withOutput_append (s : State) (bs cs : List Byte) :
    s.withOutput (bs ++ cs) = (s.withOutput bs).withOutput cs := by
  induction bs generalizing s with
  | nil => rfl
  | cons b bs ih => rw [List.cons_append, State.withOutput_cons, ih, State.withOutput_cons]

theorem State.withStored_eq (s : State) (b : Byte) : s.withStored b = s.withOutput [b] := rfl

theorem State.withOutput_withBits (s : State) (bs : List Byte) (a : Word) (n : Nat) :
    (s.withBits a n).withOutput bs = (s.withOutput bs).withBits a n := rfl

@[simp] theorem State.withBits_withBits (s : State) (a a' : Word) (n n' : Nat) :
    (s.withBits a n).withBits a' n' = s.withBits a' n' := rfl

/-! ### The byte store -/

/-- What room for a byte is: the cursor is in the reservation and its address exists (rules R60, R94). -/
theorem RoomFor.one {s : State} (h : RoomFor s 1) : s.w.pos < s.w.rsv ∧ s.sink.used + s.w.pos < s.sink.buf.len := by
  unfold RoomFor at h; omega

theorem emitByte_room {s : State} (h : RoomFor s 1) (op : Opcode) (b : Byte) :
    emitByte op b s = .go (s.withOutput [b]) := by
  obtain ⟨h1, h2⟩ := h.one
  rw [emitByte, if_neg (by omega), if_neg (by omega)]; rfl

theorem emitByte_overrun {s : State} (h : s.w.rsv ≤ s.w.pos) (op : Opcode) (b : Byte) :
    emitByte op b s = raise .overrun .writer op s := if_pos h

/-- What the byte store can answer. -/
theorem emitByte_cases (op : Opcode) (b : Byte) (s : State) :
    RoomFor s 1 ∧ emitByte op b s = .go (s.withOutput [b]) ∨
      s.w.rsv ≤ s.w.pos ∧ emitByte op b s = raise .overrun .writer op s ∨
      s.sink.buf.len ≤ s.sink.used + s.w.pos ∧ s.w.pos < s.w.rsv ∧
        emitByte op b s = .stop (.outAddress (s.sink.used + s.w.pos)) := by
  by_cases h1 : s.w.rsv ≤ s.w.pos
  · exact .inr (.inl ⟨h1, emitByte_overrun h1 op b⟩)
  · by_cases h2 : s.sink.buf.len ≤ s.sink.used + s.w.pos
    · exact .inr (.inr ⟨h2, by omega, by rw [emitByte, if_neg h1, if_pos h2]⟩)
    · have h : RoomFor s 1 := .inr ⟨by omega, by omega⟩
      exact .inl ⟨h, emitByte_room h op b⟩

theorem RoomFor.mono {s : State} {m n : Nat} (h : RoomFor s n) (hm : m ≤ n) : RoomFor s m := by
  unfold RoomFor at *; omega

theorem RoomFor.rest {s : State} {bs : List Byte} {n : Nat} (h : RoomFor s (bs.length + n)) :
    RoomFor (s.withOutput bs) n := by
  unfold RoomFor at *
  simp only [State.withOutput_w, State.withOutput_sink, Memory.len_writeList]
  omega

theorem emitRaw_room (op : Opcode) {bs : List Byte} {s : State} (h : RoomFor s bs.length) :
    emitRaw op bs s = .go (s.withOutput bs) := by
  induction bs generalizing s with
  | nil => rfl
  | cons b bs ih =>
    rw [List.length_cons] at h
    rw [emitRaw, emitByte_room (h.mono (by omega)), Run.go_andThen,
      ih (RoomFor.rest (bs := [b]) (by simpa [Nat.add_comm] using h)), ← State.withOutput_append]
    rfl

/-! ### The bytes of a flush -/

/-- The model's top byte is the byte of rule R141, `ACC[31:24]`, as a quotient. -/
theorem topByte_eq (acc : Word) : topByte acc = BitVec.ofNat 8 (acc.toNat / 2 ^ 24) := by
  rw [topByte, BitVec.extractLsb', Nat.shiftRight_eq_div_pow]

@[simp] theorem flushOutput_zero (acc : Word) : flushOutput acc 0 = [] := rfl

@[simp] theorem flushOutput_succ (acc : Word) (k : Nat) :
    flushOutput acc (k + 1) = stuffed (topByte acc) ++ flushOutput (acc <<< 8) k := by rw [topByte_eq]; rfl

/-! ### The flush loop -/

theorem flushOne_room (op : Opcode) {s : State} (h : RoomFor s (stuffed (topByte s.w.acc)).length) :
    flushOne op s = .go (s.flushed 1) := by
  have h1 : RoomFor s 1 := h.mono (by unfold stuffed; split <;> simp)
  rw [flushOne, emitByte_room h1, Run.go_andThen, emitStuffing]
  by_cases hb : topByte s.w.acc = Config.marker
  · have hs : stuffed (topByte s.w.acc) = [topByte s.w.acc, Config.stuff] := if_pos hb
    rw [if_pos hb, emitByte_room (RoomFor.rest (bs := [_]) (by rw [hs] at h; exact h)), Run.go_andThen,
      ← State.withOutput_append]
    simp [State.flushed, hs]
  · have hs : stuffed (topByte s.w.acc) = [topByte s.w.acc] := if_neg hb
    rw [if_neg hb, Run.go_andThen]
    simp [State.flushed, hs]

@[simp] theorem State.flushed_zero (s : State) : s.flushed 0 = s := by
  simp [State.flushed, State.withBits]

@[simp] theorem State.flushed_acc (s : State) (k : Nat) : (s.flushed k).w.acc = s.w.acc <<< (8 * k) := rfl
@[simp] theorem State.flushed_nb (s : State) (k : Nat) : (s.flushed k).w.nb = s.w.nb - 8 * k := rfl

theorem shiftLeft_eight_step (a : Word) (k : Nat) : (a <<< 8) <<< (8 * k) = a <<< (8 * (k + 1)) := by
  rw [← BitVec.shiftLeft_add]; congr 1; omega

theorem State.flushed_succ (s : State) (k : Nat) : (s.flushed 1).flushed k = s.flushed (k + 1) := by
  simp only [State.flushed, State.withBits_w, State.withOutput_w, State.withOutput_withBits, State.withBits_withBits,
    ← State.withOutput_append, flushOutput_zero, flushOutput_succ, List.append_nil, Nat.mul_one, shiftLeft_eight_step, Nat.sub_sub,
    show 8 + 8 * k = 8 * (k + 1) by omega]

theorem flushLoop_room (op : Opcode) (fuel : Nat) {s : State} (hf : s.w.nb / 8 ≤ fuel)
    (h : RoomFor s (flushOutput s.w.acc (s.w.nb / 8)).length) :
    flushLoop op fuel s = .go (s.flushed (s.w.nb / 8)) := by
  induction fuel generalizing s with
  | zero => rw [Nat.le_zero.1 hf, State.flushed_zero]; rfl
  | succ fuel ih =>
    rw [flushLoop]
    split
    · obtain ⟨k, hk⟩ : ∃ k, s.w.nb / 8 = k + 1 := ⟨s.w.nb / 8 - 1, by omega⟩
      have hk' : (s.flushed 1).w.nb / 8 = k := by rw [State.flushed_nb]; omega
      rw [hk, flushOutput_succ, List.length_append] at h
      have hrest : RoomFor (s.flushed 1) (flushOutput (s.w.acc <<< 8) k).length := by
        have := RoomFor.rest h
        simpa [State.flushed, RoomFor] using this
      rw [flushOne_room op (h.mono (by omega)), Run.go_andThen, ih (by omega) (by rw [hk']; exact hrest), hk',
        State.flushed_succ, hk]
    · rw [show s.w.nb / 8 = 0 by omega, State.flushed_zero]

/-- FlushBytes with room: exactly the complete pending bytes are emitted (rule R141). -/
theorem flushBytes_room (op : Opcode) {s : State} (h : RoomFor s (flushOutput s.w.acc (s.w.nb / 8)).length) :
    flushBytes op s = .go (s.flushed (s.w.nb / 8)) := flushLoop_room op _ (by omega) h

/-! ### The counter's flush -/

theorem escaped_eq_length (b : Byte) : escaped b = (stuffed b).length := by
  unfold escaped stuffed Config.marker
  split <;> rfl

@[simp] theorem State.countFlushed_zero (s : State) : s.countFlushed 0 = s := by
  simp [State.countFlushed]

theorem State.countFlushed_succ (s : State) (k : Nat) : (s.countFlushed 1).countFlushed k = s.countFlushed (k + 1) := by
  simp only [State.countFlushed, flushOutput_zero, flushOutput_succ, List.append_nil, Nat.mul_one, shiftLeft_eight_step, Nat.sub_sub,
    List.length_append, Nat.add_assoc, show 8 + 8 * k = 8 * (k + 1) by omega]

theorem countFlushOne_fits (op : Opcode) {s : State}
    (h : s.c.total + (stuffed (topByte s.c.acc)).length ≤ Config.totalMax) :
    countFlushOne op s = .go (s.countFlushed 1) := by
  rw [countFlushOne, counterAdd, escaped_eq_length, if_neg (by omega)]
  simp [State.countFlushed, State.withCounterBits]

theorem countFlushLoop_fits (op : Opcode) (fuel : Nat) {s : State} (hf : s.c.nb / 8 ≤ fuel)
    (h : s.c.total + (flushOutput s.c.acc (s.c.nb / 8)).length ≤ Config.totalMax) :
    countFlushLoop op fuel s = .go (s.countFlushed (s.c.nb / 8)) := by
  induction fuel generalizing s with
  | zero => rw [Nat.le_zero.1 hf, State.countFlushed_zero]; rfl
  | succ fuel ih =>
    rw [countFlushLoop]
    split
    · obtain ⟨k, hk⟩ : ∃ k, s.c.nb / 8 = k + 1 := ⟨s.c.nb / 8 - 1, by omega⟩
      have hk' : (s.countFlushed 1).c.nb / 8 = k := by simp only [State.countFlushed]; omega
      rw [hk, flushOutput_succ, List.length_append] at h
      rw [countFlushOne_fits op (by omega), Run.go_andThen, ih (by omega), hk', State.countFlushed_succ, hk]
      rw [hk']
      simpa [State.countFlushed, Nat.add_assoc] using h
    · rw [show s.c.nb / 8 = 0 by omega, State.countFlushed_zero]

/-- CountFlush without overflow: exactly the complete pending bytes are counted, escapes included (rule R191). -/
theorem countFlush_fits (op : Opcode) {s : State}
    (h : s.c.total + (flushOutput s.c.acc (s.c.nb / 8)).length ≤ Config.totalMax) :
    countFlush op s = .go (s.countFlushed (s.c.nb / 8)) := countFlushLoop_fits op _ (by omega) h

end Sys2Proof.Machine
end

