-- ==== Sys2Proof/Laws/Frames.lean ====
section
/-! SUPPORT. What the writer's and the counter's emitting operations can do in every state: their frames, the bits they shift
out, and when the model stops. -/

namespace Sys2Proof.Machine

/-! ### The writer -/

/-- What an emission leaves and what it gives: the frame, the cursor in its reservation, the canonical form, every byte up to
the cursor known, and no fault but OVERRUN. -/
structure Emitting (op : Opcode) (s t : State) : Prop where
  frame : WriterFrame s t
  fits : s.w.pos ≤ s.w.rsv → t.w.pos ≤ t.w.rsv
  memory : s.sink.buf.wf → t.sink.buf.wf
  known : t.sink.buf.Known (s.sink.used + s.w.pos) (s.sink.used + t.w.pos)
  fault : t.fault = s.fault ∨ t.fault = faultWord .overrun .writer op

theorem WriterFrame.refl (s : State) : WriterFrame s s :=
  ⟨rfl, rfl, rfl, rfl, rfl, rfl, rfl, rfl, rfl, rfl, rfl, rfl, le_rfl, fun _ _ => rfl⟩

theorem WriterFrame.trans {s t u : State} (h : WriterFrame s t) (k : WriterFrame t u) : WriterFrame s u where
  cfg := k.cfg.trans h.cfg
  c := k.c.trans h.c
  resp := k.resp.trans h.resp
  port := k.port.trans h.port
  delivered := k.delivered.trans h.delivered
  oracle := k.oracle.trans h.oracle
  rsv := k.rsv.trans h.rsv
  mode := k.mode.trans h.mode
  sinkState := k.sinkState.trans h.sinkState
  used := k.used.trans h.used
  cap := k.cap.trans h.cap
  len := k.len.trans h.len
  cursor := h.cursor.trans k.cursor
  bytes := fun a ha => by
    have h1 := h.used; have h2 := h.cursor; have h3 := k.cursor
    rw [k.bytes a (by omega), h.bytes a (by omega)]

theorem Emitting.refl (op : Opcode) (s : State) : Emitting op s s :=
  ⟨.refl s, id, id, Memory.known_nothing _ _, .inl rfl⟩

theorem Emitting.trans {op : Opcode} {s t u : State} (h : Emitting op s t) (k : Emitting op t u) : Emitting op s u where
  frame := h.frame.trans k.frame
  fits := fun hs => k.fits (h.fits hs)
  memory := fun hs => k.memory (h.memory hs)
  known := by
    have hu := h.frame.used
    refine Memory.Known.join (mid := s.sink.used + t.w.pos) (fun a h1 h2 => ?_) (hu ▸ k.known)
    rw [k.frame.bytes a (.inl (by omega))]
    exact h.known a h1 h2
  fault := k.fault.elim (fun e => e ▸ h.fault) .inr

theorem Emitting.bits {op : Opcode} {s t : State} (h : Emitting op s t) (a : Word) (n : Nat) :
    Emitting op s (t.withBits a n) where
  frame := { h.frame with cursor := h.frame.cursor, bytes := h.frame.bytes }
  fits := h.fits
  memory := h.memory
  known := h.known
  fault := h.fault

theorem Emitting.afterBits {op : Opcode} {s t : State} {a : Word} {n : Nat} (h : Emitting op (s.withBits a n) t) :
    Emitting op s t where
  frame := { h.frame with cursor := h.frame.cursor, bytes := h.frame.bytes }
  fits := h.fits
  memory := h.memory
  known := h.known
  fault := h.fault

theorem emitting_withStored (op : Opcode) {s : State} (h : RoomFor s 1) (b : Byte) :
    Emitting op s (s.withOutput [b]) where
  frame :=
    { cfg := rfl, c := rfl, resp := rfl, port := rfl, delivered := rfl, oracle := rfl, rsv := rfl, mode := rfl
      sinkState := rfl, used := rfl, cap := rfl, len := rfl
      cursor := Nat.le_add_right _ _
      bytes := fun a ha => Memory.read_writeList_outside _ _ (by
        simp only [State.withOutput_w, List.length_singleton] at ha ⊢; omega) }
  fits := fun _ => h.one.1
  memory := fun hs => Memory.write_wf b hs h.one.2
  known := fun a h1 h2 => by
    simp only [State.withOutput_w, List.length_singleton] at h2
    have : a = s.sink.used + s.w.pos := by omega
    subst this
    simp [Memory.writeList]
  fault := .inl rfl

theorem emitting_overrun (op : Opcode) (s : State) : Emitting op s (latchFault .overrun .writer op s) where
  frame := by
    constructor <;> simp
  fits := by simp
  memory := by simp
  known := by simpa using Memory.known_nothing _ _
  fault := by unfold latchFault; split <;> simp

theorem emitByte_leaves (op : Opcode) (b : Byte) (s : State) : (emitByte op b s).Leaves (Emitting op s) := by
  rcases emitByte_cases op b s with ⟨hr, h⟩ | ⟨_, h⟩ | ⟨_, _, h⟩ <;> rw [h]
  · exact emitting_withStored op hr b
  · exact emitting_overrun op s
  · trivial

theorem emitRaw_leaves (op : Opcode) (bs : List Byte) (s : State) : (emitRaw op bs s).Leaves (Emitting op s) := by
  induction bs generalizing s with
  | nil => exact .refl op s
  | cons b bs ih =>
    exact (emitByte_leaves op b s).andThen (fun _ h => h) fun t ht => (ih t).imp fun _ hu => ht.trans hu

/-- The writer's accumulator after some complete bytes have been shifted out of it. -/
def Shifted (s t : State) : Prop := ∃ j, t.w.acc = s.w.acc <<< (8 * j) ∧ t.w.nb + 8 * j = s.w.nb

theorem Shifted.refl (s : State) : Shifted s s := ⟨0, by simp, by simp⟩

theorem Shifted.trans {s t u : State} (h : Shifted s t) (k : Shifted t u) : Shifted s u := by
  obtain ⟨i, h1, h2⟩ := h
  obtain ⟨j, k1, k2⟩ := k
  refine ⟨i + j, ?_, by omega⟩
  rw [k1, h1, ← BitVec.shiftLeft_add]; congr 1; omega

/-- Shifting out whole bytes keeps the bits below the pending ones zero (rule R32). -/
theorem Shifted.low {s t : State} (h : Shifted s t) : t.w.acc <<< t.w.nb = s.w.acc <<< s.w.nb := by
  obtain ⟨j, h1, h2⟩ := h
  rw [h1, ← BitVec.shiftLeft_add]; congr 1; omega

/-- One byte emitted, its stuffing too: the accumulator is untouched. -/
theorem emitByte_bits (op : Opcode) (b : Byte) (s : State) :
    (emitByte op b s).Leaves fun t => t.w.acc = s.w.acc ∧ t.w.nb = s.w.nb := by
  rcases emitByte_cases op b s with ⟨_, h⟩ | ⟨_, h⟩ | ⟨_, _, h⟩ <;> rw [h]
  · exact ⟨rfl, rfl⟩
  · simp [raise, Run.Leaves]
  · trivial

theorem flushOne_leaves (op : Opcode) {s : State} (h8 : 8 ≤ s.w.nb) :
    (flushOne op s).Leaves fun t => Emitting op s t ∧ Shifted s t := by
  have same : ∀ {t : State}, t.w.acc = s.w.acc ∧ t.w.nb = s.w.nb → Shifted s t :=
    fun h => ⟨0, by simp [h.1], by simp [h.2]⟩
  have both : ∀ (b : Byte) (t : State),
      (emitByte op b t).Leaves fun u => Emitting op t u ∧ u.w.acc = t.w.acc ∧ u.w.nb = t.w.nb := fun b t => by
    have h1 := emitByte_leaves op b t
    have h2 := emitByte_bits op b t
    cases hr : emitByte op b t <;> rw [hr] at h1 h2
    · exact ⟨h1, h2⟩
    · exact ⟨h1, h2⟩
    · trivial
  have stuffing : ((emitByte op (topByte s.w.acc) s).andThen (emitStuffing op (topByte s.w.acc))).Leaves
      fun t => Emitting op s t ∧ t.w.acc = s.w.acc ∧ t.w.nb = s.w.nb := by
    refine (both _ s).andThen (fun _ h => h) fun t ht => ?_
    unfold emitStuffing
    split
    · exact (both _ t).imp fun u hu => ⟨ht.1.trans hu.1, hu.2.1.trans ht.2.1, hu.2.2.trans ht.2.2⟩
    · exact ht
  refine stuffing.andThen (fun t ht => ⟨ht.1, same ht.2⟩) fun t ht => ⟨ht.1.bits _ _, 1, ?_, ?_⟩
  · simp [ht.2.1]
  · simp only [State.withBits_w, ht.2.2]; omega

theorem flushLoop_leaves (op : Opcode) (fuel : Nat) (s : State) :
    (flushLoop op fuel s).Leaves fun t => Emitting op s t ∧ Shifted s t := by
  induction fuel generalizing s with
  | zero => exact ⟨.refl op s, .refl s⟩
  | succ fuel ih =>
    rw [flushLoop]
    split
    · rename_i h8
      exact (flushOne_leaves op h8).andThen (fun _ h => h) fun t ht =>
        (ih t).imp fun u hu => ⟨ht.1.trans hu.1, ht.2.trans hu.2⟩
    · exact ⟨.refl op s, .refl s⟩

/-- Everything FlushBytes can do, in every state (rule R141). -/
theorem flushBytes_leaves (op : Opcode) (s : State) :
    (flushBytes op s).Leaves fun t => Emitting op s t ∧ Shifted s t := flushLoop_leaves op _ s

/-! ### Where FlushBytes goes on, fewer than 8 bits are pending -/

theorem flushOne_go {op : Opcode} {s t : State} (h : flushOne op s = .go t) : t.w.nb = s.w.nb - 8 := by
  have hb : ((emitByte op (topByte s.w.acc) s).andThen (emitStuffing op (topByte s.w.acc))).Leaves
      fun t => t.w.nb = s.w.nb := by
    refine (emitByte_bits op _ s).andThen (fun _ h => h.2) fun u hu => ?_
    unfold emitStuffing
    split
    · exact (emitByte_bits op _ u).imp fun v hv => hv.2.trans hu.2
    · exact hu.2
  unfold flushOne at h
  cases hr : (emitByte op (topByte s.w.acc) s).andThen (emitStuffing op (topByte s.w.acc)) <;> rw [hr] at h hb
  · cases h
    exact congrArg (· - 8) hb
  · cases h
  · cases h

theorem flushLoop_go {op : Opcode} (fuel : Nat) {s t : State} (hf : s.w.nb / 8 ≤ fuel)
    (h : flushLoop op fuel s = .go t) : t.w.nb = s.w.nb % 8 := by
  induction fuel generalizing s with
  | zero => cases h; omega
  | succ fuel ih =>
    rw [flushLoop] at h
    split at h
    · cases hr : flushOne op s <;> rw [hr] at h
      · have := flushOne_go hr
        rw [ih (by omega) h]; omega
      · cases h
      · cases h
    · cases h; omega

theorem flushBytes_go {op : Opcode} {s t : State} (h : flushBytes op s = .go t) : t.w.nb = s.w.nb % 8 :=
  flushLoop_go _ (by omega) h

/-! ### Where the model stops -/

/-- The writer's region is inside S.BUF, or empty. -/
def RegionInside (s : State) : Prop := s.w.rsv = 0 ∨ s.sink.used + s.w.rsv ≤ s.sink.buf.len

theorem RegionInside.keep {op : Opcode} {s t : State} (h : RegionInside s) (k : Emitting op s t) : RegionInside t := by
  have h1 := k.frame.rsv; have h2 := k.frame.used; have h3 := k.frame.len
  unfold RegionInside at *
  omega

theorem Run.Answers.andThen {r : Run} {k : State → Run} {P : State → Prop} (h : r.Answers) (hp : r.Leaves P)
    (hk : ∀ s, P s → (k s).Answers) : (r.andThen k).Answers := by
  cases r with
  | go s => exact hk s hp
  | ended s => trivial
  | stop f => exact h

theorem emitByte_answers {s : State} (h : RegionInside s) (op : Opcode) (b : Byte) : (emitByte op b s).Answers := by
  rcases emitByte_cases op b s with ⟨_, e⟩ | ⟨_, e⟩ | ⟨h1, h2, e⟩ <;> rw [e]
  · trivial
  · trivial
  · unfold RegionInside at h
    omega

theorem emitRaw_answers {s : State} (h : RegionInside s) (op : Opcode) (bs : List Byte) :
    (emitRaw op bs s).Answers := by
  induction bs generalizing s with
  | nil => trivial
  | cons b bs ih => exact (emitByte_answers h op b).andThen (emitByte_leaves op b s) fun t ht => ih (h.keep ht)

theorem flushOne_answers {s : State} (h : RegionInside s) (op : Opcode) : (flushOne op s).Answers := by
  have h1 : ((emitByte op (topByte s.w.acc) s).andThen (emitStuffing op (topByte s.w.acc))).Answers := by
    refine (emitByte_answers h op _).andThen (emitByte_leaves op _ s) fun t ht => ?_
    unfold emitStuffing
    split
    · exact emitByte_answers (h.keep ht) op _
    · trivial
  exact Run.Answers.andThen (P := fun _ => True) h1 (by unfold Run.Leaves; split <;> trivial) fun _ _ => trivial

theorem flushBytes_answers {s : State} (h : RegionInside s) (op : Opcode) : (flushBytes op s).Answers := by
  unfold flushBytes
  generalize s.w.nb = fuel
  induction fuel generalizing s with
  | zero => trivial
  | succ fuel ih =>
    rw [flushLoop]
    split
    · rename_i h8
      exact (flushOne_answers h op).andThen (flushOne_leaves op h8) fun t ht => ih (h.keep ht.1)
    · trivial

/-! ### The counter -/

/-- What the counter's flush leaves and gives (rules R191, R199). -/
structure Counting (op : Opcode) (s t : State) : Prop where
  frame : CounterFrame s t
  resp : t.resp = s.resp
  bits : ∃ j, t.c.acc = s.c.acc <<< (8 * j) ∧ t.c.nb + 8 * j = s.c.nb
  total : s.c.total ≤ Config.totalMax → t.c.total ≤ Config.totalMax
  fault : t.fault = s.fault ∨ t.fault = faultWord .counterOverflow .counter op

theorem Counting.refl (op : Opcode) (s : State) : Counting op s s :=
  ⟨⟨rfl, rfl, rfl, rfl, rfl, rfl⟩, rfl, ⟨0, by simp, by simp⟩, id, .inl rfl⟩

theorem Counting.trans {op : Opcode} {s t u : State} (h : Counting op s t) (k : Counting op t u) : Counting op s u where
  frame := ⟨k.frame.cfg.trans h.frame.cfg, k.frame.w.trans h.frame.w, k.frame.sink.trans h.frame.sink,
    k.frame.port.trans h.frame.port, k.frame.delivered.trans h.frame.delivered, k.frame.oracle.trans h.frame.oracle⟩
  resp := k.resp.trans h.resp
  bits := by
    obtain ⟨i, h1, h2⟩ := h.bits
    obtain ⟨j, k1, k2⟩ := k.bits
    refine ⟨i + j, ?_, by omega⟩
    rw [k1, h1, ← BitVec.shiftLeft_add]; congr 1; omega
  total := fun hs => k.total (h.total hs)
  fault := k.fault.elim (fun e => e ▸ h.fault) .inr

theorem countFlushOne_leaves (op : Opcode) {s : State} (h8 : 8 ≤ s.c.nb) :
    (countFlushOne op s).Leaves (Counting op s) := by
  unfold countFlushOne counterAdd
  split
  · exact ⟨by constructor <;> simp, by simp, ⟨0, by simp, by simp⟩, by simp, by unfold latchFault; split <;> simp⟩
  · rename_i hfit
    refine ⟨⟨rfl, rfl, rfl, rfl, rfl, rfl⟩, rfl, ⟨1, rfl, ?_⟩, fun _ => ?_, .inl rfl⟩
    · simp only [State.withCounterBits_c]; omega
    · simp only [State.withCounterBits_c]; omega

/-- Everything CountFlush can do, in every state (rule R191). -/
theorem countFlush_leaves (op : Opcode) (s : State) : (countFlush op s).Leaves (Counting op s) := by
  unfold countFlush
  generalize s.c.nb = fuel
  induction fuel generalizing s with
  | zero => exact .refl op s
  | succ fuel ih =>
    rw [countFlushLoop]
    split
    · rename_i h8
      exact (countFlushOne_leaves op h8).andThen (fun _ h => h) fun t ht => (ih t).imp fun _ hu => ht.trans hu
    · exact .refl op s

theorem countFlush_go {op : Opcode} {s t : State} (h : countFlush op s = .go t) : t.c.nb = s.c.nb % 8 := by
  have loop : ∀ fuel (s : State), s.c.nb / 8 ≤ fuel → countFlushLoop op fuel s = .go t → t.c.nb = s.c.nb % 8 := by
    intro fuel
    induction fuel with
    | zero => intro s hf h; cases h; omega
    | succ fuel ih =>
      intro s hf h
      rw [countFlushLoop] at h
      split at h
      · have h1 : countFlushOne op s = .go { s with c := { acc := s.c.acc <<< 8, nb := s.c.nb - 8, total := s.c.total + escaped (topByte s.c.acc) } } ∨
            ∃ u, countFlushOne op s = .ended u := by
          unfold countFlushOne counterAdd
          split
          · exact .inr ⟨_, rfl⟩
          · exact .inl rfl
        rcases h1 with h1 | ⟨u, h1⟩ <;> rw [h1] at h
        · have := ih _ (by simp only; omega) h
          rw [this]; simp only; omega
        · cases h
      · cases h; omega
  exact loop _ s (by omega) h

theorem countFlush_answers (op : Opcode) (s : State) : (countFlush op s).Answers := by
  unfold countFlush
  generalize s.c.nb = fuel
  induction fuel generalizing s with
  | zero => trivial
  | succ fuel ih =>
    rw [countFlushLoop]
    split
    · rename_i h8
      refine Run.Answers.andThen ?_ (countFlushOne_leaves op h8) fun t _ => ih t
      unfold countFlushOne counterAdd
      split <;> trivial
    · trivial

end Sys2Proof.Machine
end

