-- ==== Sys2Proof/Laws/Flush.lean ====
section
/-! SUPPORT. FlushBytes and CountFlush turn by turn: what they have done where they go on, and where they stop short. -/

namespace Sys2Proof.Machine

theorem Run.andThen_go {r : Run} {k : State → Run} {t : State} (h : r.andThen k = .go t) :
    ∃ u, r = .go u ∧ k u = .go t := by
  cases r with
  | go u => exact ⟨u, rfl, h⟩
  | ended u => cases h
  | stop f => cases h

/-! ### A command ends early only with a fault latched (rule R212) -/

/-- Where the run has ended, a fault is recorded. -/
def Run.EndsFaulted (r : Run) : Prop :=
  match r with
  | .go _ => True
  | .ended s => faultV s = true
  | .stop _ => True

theorem Run.EndsFaulted.andThen {r : Run} {k : State → Run} (h : r.EndsFaulted) (hk : ∀ s, (k s).EndsFaulted) :
    (r.andThen k).EndsFaulted := by
  cases r with
  | go s => exact hk s
  | ended s => exact h
  | stop f => trivial

/-- A run that leaves a running state has gone on to its end. -/
theorem Run.EndsFaulted.running {r : Run} (h : r.EndsFaulted) {t : State} (ht : r.outcome = .next t) (hr : Running t) :
    r = .go t := by
  cases r with
  | go s => cases ht; rfl
  | ended u =>
    injection ht with ht
    have hf : faultV u = true := h
    have hn : faultV t = false := hr
    rw [← ht, hf] at hn
    cases hn
  | stop f => cases ht

theorem raise_endsFaulted (k : Cause) (u : BlockUnit) (op : Opcode) (s : State) : (raise k u op s).EndsFaulted :=
  faultV_latchFault k u op s

theorem writerGuard_endsFaulted (op : Opcode) (s : State) : (writerGuard op s).EndsFaulted := by
  unfold writerGuard; split
  · trivial
  · exact raise_endsFaulted _ _ _ s

theorem checkCode_endsFaulted (u : BlockUnit) (op : Opcode) (v : Word) (n : Nat) (s : State) :
    (checkCode u op v n s).EndsFaulted := by
  unfold checkCode; split
  · exact raise_endsFaulted _ _ _ s
  · split
    · exact raise_endsFaulted _ _ _ s
    · trivial

theorem requireNoPending_endsFaulted (op : Opcode) (s : State) : (requireNoPending op s).EndsFaulted := by
  unfold requireNoPending; split
  · exact raise_endsFaulted _ _ _ s
  · trivial

theorem requirePayload_endsFaulted (op : Opcode) (size : Word) (p : List Byte) (s : State) :
    (requirePayload op size p s).EndsFaulted := by
  unfold requirePayload; split
  · trivial
  · exact raise_endsFaulted _ _ _ s

theorem emitByte_endsFaulted (op : Opcode) (b : Byte) (s : State) : (emitByte op b s).EndsFaulted := by
  rcases emitByte_cases op b s with ⟨_, h⟩ | ⟨_, h⟩ | ⟨_, _, h⟩ <;> rw [h]
  · trivial
  · exact raise_endsFaulted _ _ _ s
  · trivial

theorem emitRaw_endsFaulted (op : Opcode) (bs : List Byte) (s : State) : (emitRaw op bs s).EndsFaulted := by
  induction bs generalizing s with
  | nil => trivial
  | cons b bs ih => exact (emitByte_endsFaulted op b s).andThen ih

theorem flushOne_endsFaulted (op : Opcode) (s : State) : (flushOne op s).EndsFaulted := by
  refine ((emitByte_endsFaulted op _ s).andThen fun t => ?_).andThen fun _ => trivial
  unfold emitStuffing; split
  · exact emitByte_endsFaulted op _ t
  · trivial

theorem flushBytes_endsFaulted (op : Opcode) (s : State) : (flushBytes op s).EndsFaulted := by
  unfold flushBytes
  generalize s.w.nb = fuel
  induction fuel generalizing s with
  | zero => trivial
  | succ fuel ih =>
    rw [flushLoop]; split
    · exact (flushOne_endsFaulted op s).andThen ih
    · trivial

theorem putCode_endsFaulted (op : Opcode) (v : Word) (n : Nat) (s : State) : (putCode op v n s).EndsFaulted :=
  (((writerGuard_endsFaulted op s).andThen (checkCode_endsFaulted .writer op v n)).andThen
    (flushBytes_endsFaulted op)).andThen fun _ => trivial

/-! ### The emitted bytes -/

theorem stuffed_length (b : Byte) : 1 ≤ (stuffed b).length ∧ (stuffed b).length ≤ 2 := by
  unfold stuffed; split <;> simp

/-- Between k and 2k bytes for k flushed bytes (rule R185). -/
theorem flushOutput_length (acc : Word) (k : Nat) :
    k ≤ (flushOutput acc k).length ∧ (flushOutput acc k).length ≤ 2 * k := by
  induction k generalizing acc with
  | zero => simp
  | succ k ih =>
    have h1 := ih (acc <<< 8)
    have h2 := stuffed_length (topByte acc)
    rw [flushOutput_succ, List.length_append]
    omega

theorem flushOutput_length_mono (acc : Word) {j k : Nat} (h : j ≤ k) :
    (flushOutput acc j).length ≤ (flushOutput acc k).length := by
  induction k generalizing acc j with
  | zero => rw [Nat.le_zero.1 h]
  | succ k ih =>
    cases j with
    | zero => simp
    | succ j =>
      have := ih (acc <<< 8) (j := j) (by omega)
      simp only [flushOutput_succ, List.length_append]
      omega

/-- The j-th byte from the top is the top byte after j bytes have been shifted out. -/
theorem byteAt_eq_topByte (acc : Word) {j : Nat} (h : j ≤ 3) : byteAt acc j = topByte (acc <<< (8 * j)) := by
  apply BitVec.eq_of_getLsbD_eq
  intro i hi
  simp only [byteAt, topByte, BitVec.getLsbD_extractLsb', BitVec.getLsbD_shiftLeft]
  rw [show 24 + i - 8 * j = 24 - 8 * j + i by omega]
  simp [hi, show 24 + i < 32 by omega, show ¬ 24 + i < 8 * j by omega]

theorem flushOutput_length_sum (acc : Word) (k : Nat) :
    (flushOutput acc k).length = ((List.range k).map fun j => escaped (topByte (acc <<< (8 * j)))).sum := by
  induction k generalizing acc with
  | zero => rfl
  | succ k ih =>
    rw [flushOutput_succ, List.length_append, ih, ← escaped_eq_length, List.range_succ_eq_map]
    simp only [List.map_cons, List.map_map, List.sum_cons, Nat.mul_zero, BitVec.shiftLeft_zero]
    congr 2
    apply List.map_congr_left
    intro j _
    simp only [Function.comp, shiftLeft_eight_step]

/-- The projected tail of CSIZE is the number of bytes a flush of the padded accumulator emits (rule R196). -/
theorem projectedTail_eq {acc : Word} {nb : Nat} (h : nb ≤ 31) :
    projectedTail acc nb = (flushOutput (padOnes acc nb (padCount nb)) ((nb + padCount nb) / 8)).length := by
  rw [flushOutput_length_sum, projectedTail]
  congr 1
  apply List.map_congr_left
  intro j hj
  have : j ≤ 3 := by have := List.mem_range.1 hj; unfold padCount at this; omega
  rw [byteAt_eq_topByte _ this]

/-! ### Pads -/

theorem ones_eq {k : Nat} (h : k < 8) : ones k = BitVec.ofNat 32 (2 ^ k - 1) := by
  interval_cases k <;> rfl

theorem padCount_lt (nb : Nat) : padCount nb < 8 := by unfold padCount; omega

theorem padCount_whole (nb : Nat) : 8 * ((nb + padCount nb) / 8) = nb + padCount nb := by unfold padCount; omega

theorem padCount_ceil (nb : Nat) : (nb + padCount nb) / 8 = (nb + 7) / 8 := by unfold padCount; omega

theorem shiftLeft_zero_of_le {a : Word} {m n : Nat} (h : a <<< m = 0#32) (hmn : m ≤ n) : a <<< n = 0#32 := by
  obtain ⟨k, rfl⟩ := Nat.exists_eq_add_of_le hmn
  rw [BitVec.shiftLeft_add, h, BitVec.zero_shiftLeft]

/-- Once every padded byte has been shifted out the accumulator is empty (rule R177). -/
theorem padOnes_shift {acc : Word} {nb : Nat} (h : nb ≤ 31) (hl : acc <<< nb = 0#32) :
    padOnes acc nb (padCount nb) <<< (nb + padCount nb) = 0#32 := by
  have hp : nb + padCount nb ≤ 32 := by unfold padCount; omega
  rw [padOnes, BitVec.shiftLeft_or_distrib, shiftLeft_zero_of_le hl (by omega), ← BitVec.shiftLeft_add,
    show 32 - nb - padCount nb + (nb + padCount nb) = 32 by omega]
  simp

/-! ### Where FlushBytes goes on, it has emitted exactly the complete bytes -/

theorem emitByte_go {op : Opcode} {b : Byte} {s t : State} (h : emitByte op b s = .go t) :
    RoomFor s 1 ∧ t = s.withOutput [b] := by
  rcases emitByte_cases op b s with ⟨hr, e⟩ | ⟨_, e⟩ | ⟨_, _, e⟩ <;> rw [e] at h
  · injection h with h; exact ⟨hr, h.symm⟩
  · cases h
  · cases h

theorem flushOne_go_eq {op : Opcode} {s t : State} (h : flushOne op s = .go t) : t = s.flushed 1 := by
  obtain ⟨u, hu, h⟩ := Run.andThen_go h
  obtain ⟨v, hv, hu⟩ := Run.andThen_go hu
  obtain ⟨_, rfl⟩ := emitByte_go hv
  cases h
  unfold emitStuffing at hu
  split at hu
  · rename_i hb
    obtain ⟨_, rfl⟩ := emitByte_go hu
    have hs : stuffed (topByte s.w.acc) = [topByte s.w.acc, Config.stuff] := if_pos hb
    rw [← State.withOutput_append]
    simp [State.flushed, hs]
  · rename_i hb
    cases hu
    have hs : stuffed (topByte s.w.acc) = [topByte s.w.acc] := if_neg hb
    simp [State.flushed, hs]

theorem flushLoop_go_eq {op : Opcode} (fuel : Nat) {s t : State} (hf : s.w.nb / 8 ≤ fuel)
    (h : flushLoop op fuel s = .go t) : t = s.flushed (s.w.nb / 8) := by
  induction fuel generalizing s with
  | zero => rw [Nat.le_zero.1 hf, State.flushed_zero]; cases h; rfl
  | succ fuel ih =>
    rw [flushLoop] at h
    split at h
    · obtain ⟨u, hu, h⟩ := Run.andThen_go h
      have := flushOne_go_eq hu
      subst this
      obtain ⟨k, hk⟩ : ∃ k, s.w.nb / 8 = k + 1 := ⟨s.w.nb / 8 - 1, by omega⟩
      have hk' : (s.flushed 1).w.nb / 8 = k := by rw [State.flushed_nb]; omega
      rw [ih (by omega) h, hk', State.flushed_succ, hk]
    · rw [show s.w.nb / 8 = 0 by omega, State.flushed_zero]; cases h; rfl

theorem flushBytes_go_eq {op : Opcode} {s t : State} (h : flushBytes op s = .go t) : t = s.flushed (s.w.nb / 8) :=
  flushLoop_go_eq _ (by omega) h

/-! ### Where the reservation ends inside a flush (rule R212) -/

theorem RegionInside.room {s : State} (h : RegionInside s) {n : Nat} (hn : 0 < n) (hr : s.w.pos + n ≤ s.w.rsv) :
    RoomFor s n := by
  unfold RegionInside at h
  exact .inr ⟨hr, by omega⟩

theorem flushOne_overrun (op : Opcode) {s : State} (h : RegionInside s) (hp : s.w.pos ≤ s.w.rsv)
    (ho : s.w.rsv - s.w.pos < (stuffed (topByte s.w.acc)).length) :
    flushOne op s =
      raise .overrun .writer op (s.withOutput ((stuffed (topByte s.w.acc)).take (s.w.rsv - s.w.pos))) := by
  rw [flushOne]
  by_cases h0 : s.w.rsv = s.w.pos
  · rw [emitByte_overrun (by omega), h0, Nat.sub_self]
    rfl
  · have hr := h.room (n := 1) (by omega) (by omega)
    rw [emitByte_room hr, Run.go_andThen, emitStuffing]
    by_cases hb : topByte s.w.acc = Config.marker
    · have hs : stuffed (topByte s.w.acc) = [topByte s.w.acc, Config.stuff] := if_pos hb
      rw [hs, List.length_cons, List.length_singleton] at ho
      rw [if_pos hb, emitByte_overrun (by simp only [State.withOutput_w, List.length_singleton]; omega), hs,
        show s.w.rsv - s.w.pos = 1 by omega]
      rfl
    · have hs : stuffed (topByte s.w.acc) = [topByte s.w.acc] := if_neg hb
      rw [hs, List.length_singleton] at ho
      omega

theorem flushLoop_overrun (op : Opcode) (fuel : Nat) {s : State} (hf : s.w.nb / 8 ≤ fuel) (h : RegionInside s)
    (hp : s.w.pos ≤ s.w.rsv) (ho : s.w.rsv - s.w.pos < (flushOutput s.w.acc (s.w.nb / 8)).length) :
    ∃ j, j < s.w.nb / 8 ∧ (flushOutput s.w.acc j).length ≤ s.w.rsv - s.w.pos ∧
      s.w.rsv - s.w.pos < (flushOutput s.w.acc (j + 1)).length ∧
      flushLoop op fuel s = raise .overrun .writer op
        ((s.withOutput ((flushOutput s.w.acc (s.w.nb / 8)).take (s.w.rsv - s.w.pos))).withBits
          (s.w.acc <<< (8 * j)) (s.w.nb - 8 * j)) := by
  induction fuel generalizing s with
  | zero => rw [Nat.le_zero.1 hf] at ho; simp at ho
  | succ fuel ih =>
    have h8 : 8 ≤ s.w.nb := by
      by_contra hn
      rw [show s.w.nb / 8 = 0 by omega] at ho
      simp at ho
    obtain ⟨k, hk⟩ : ∃ k, s.w.nb / 8 = k + 1 := ⟨s.w.nb / 8 - 1, by omega⟩
    rw [hk, flushOutput_succ] at ho
    rw [flushLoop, if_pos h8, hk]
    by_cases hfirst : s.w.rsv - s.w.pos < (stuffed (topByte s.w.acc)).length
    · refine ⟨0, by omega, by simp, by simpa using hfirst, ?_⟩
      rw [flushOne_overrun op h hp hfirst, flushOutput_succ, List.take_append_of_le_length (by omega)]
      simp only [raise, Run.ended_andThen, Nat.mul_zero, BitVec.shiftLeft_zero, Nat.sub_zero]
      rfl
    · have hl := stuffed_length (topByte s.w.acc)
      rw [flushOne_room op (h.room (by omega) (by omega)), Run.go_andThen]
      have hk' : (s.flushed 1).w.nb / 8 = k := by rw [State.flushed_nb]; omega
      have hpos : (s.flushed 1).w.pos = s.w.pos + (stuffed (topByte s.w.acc)).length := by
        simp [State.flushed]
      have hrsv : (s.flushed 1).w.rsv = s.w.rsv := rfl
      have hreg : RegionInside (s.flushed 1) := by
        unfold RegionInside at *
        simpa [State.flushed] using h
      rw [List.length_append] at ho
      obtain ⟨j, h1, h2, h3, h4⟩ := ih (s := s.flushed 1) (by omega) hreg (by omega)
        (by rw [hk', hpos, hrsv, State.flushed_acc, Nat.mul_one]; omega)
      rw [hk', hpos, hrsv, State.flushed_acc, State.flushed_nb, Nat.mul_one] at *
      refine ⟨j + 1, by omega, ?_, ?_, ?_⟩
      · rw [flushOutput_succ, List.length_append]; omega
      · rw [flushOutput_succ, List.length_append]; omega
      · have hsub : s.w.rsv - (s.w.pos + (stuffed (topByte s.w.acc)).length) =
            s.w.rsv - s.w.pos - (stuffed (topByte s.w.acc)).length := by omega
        rw [h4, flushOutput_succ, List.take_append, List.take_of_length_le (l := stuffed _) (by omega), hsub,
          shiftLeft_eight_step, State.withOutput_append]
        simp [State.flushed, State.withOutput_withBits, Nat.sub_sub, show 8 + 8 * j = 8 * (j + 1) by omega]

/-- FlushBytes past the reservation: the bytes that fit are kept, and the completed turns of the loop (rules R94, R212). -/
theorem flushBytes_overrun (op : Opcode) {s : State} (h : RegionInside s) (hp : s.w.pos ≤ s.w.rsv)
    (ho : s.w.rsv - s.w.pos < (flushOutput s.w.acc (s.w.nb / 8)).length) :
    ∃ j, j < s.w.nb / 8 ∧ (flushOutput s.w.acc j).length ≤ s.w.rsv - s.w.pos ∧
      s.w.rsv - s.w.pos < (flushOutput s.w.acc (j + 1)).length ∧
      flushBytes op s = raise .overrun .writer op
        ((s.withOutput ((flushOutput s.w.acc (s.w.nb / 8)).take (s.w.rsv - s.w.pos))).withBits
          (s.w.acc <<< (8 * j)) (s.w.nb - 8 * j)) := flushLoop_overrun op _ (by omega) h hp ho

theorem emitRaw_overrun (op : Opcode) {bs : List Byte} {s : State} (h : RegionInside s) (hp : s.w.pos ≤ s.w.rsv)
    (ho : s.w.rsv - s.w.pos < bs.length) :
    emitRaw op bs s = raise .overrun .writer op (s.withOutput (bs.take (s.w.rsv - s.w.pos))) := by
  induction bs generalizing s with
  | nil => simp at ho
  | cons b bs ih =>
    rw [List.length_cons] at ho
    rw [emitRaw]
    by_cases h0 : s.w.rsv = s.w.pos
    · rw [emitByte_overrun (by omega), h0, Nat.sub_self]; rfl
    · have hr := h.room (n := 1) (by omega) (by omega)
      have hpos : (s.withOutput [b]).w.pos = s.w.pos + 1 := rfl
      have hrsv : (s.withOutput [b]).w.rsv = s.w.rsv := rfl
      rw [emitByte_room hr, Run.go_andThen, ih (by unfold RegionInside at *; simpa using h) (by omega) (by omega),
        hpos, hrsv, ← State.withOutput_append]
      obtain ⟨m, hm⟩ : ∃ m, s.w.rsv - s.w.pos = m + 1 := ⟨s.w.rsv - s.w.pos - 1, by omega⟩
      rw [hm, show s.w.rsv - (s.w.pos + 1) = m by omega]
      rfl

/-! ### Where the count overflows inside a flush (rules R199, R212) -/

theorem countFlushOne_overflow (op : Opcode) {s : State}
    (h : Config.totalMax < s.c.total + (stuffed (topByte s.c.acc)).length) :
    countFlushOne op s = raise .counterOverflow .counter op s := by
  rw [countFlushOne, counterAdd, escaped_eq_length, if_pos h]; rfl

theorem countFlushLoop_overflow (op : Opcode) (fuel : Nat) {s : State} (hf : s.c.nb / 8 ≤ fuel)
    (hp : s.c.total ≤ Config.totalMax)
    (ho : Config.totalMax < s.c.total + (flushOutput s.c.acc (s.c.nb / 8)).length) :
    ∃ j, j < s.c.nb / 8 ∧ s.c.total + (flushOutput s.c.acc j).length ≤ Config.totalMax ∧
      Config.totalMax < s.c.total + (flushOutput s.c.acc (j + 1)).length ∧
      countFlushLoop op fuel s = raise .counterOverflow .counter op (s.countFlushed j) := by
  induction fuel generalizing s with
  | zero => rw [Nat.le_zero.1 hf] at ho; simp only [flushOutput_zero, List.length_nil] at ho; omega
  | succ fuel ih =>
    have h8 : 8 ≤ s.c.nb := by
      by_contra hn
      rw [show s.c.nb / 8 = 0 by omega] at ho
      simp only [flushOutput_zero, List.length_nil] at ho
      omega
    obtain ⟨k, hk⟩ : ∃ k, s.c.nb / 8 = k + 1 := ⟨s.c.nb / 8 - 1, by omega⟩
    rw [hk, flushOutput_succ, List.length_append] at ho
    rw [countFlushLoop, if_pos h8, hk]
    by_cases hfirst : Config.totalMax < s.c.total + (stuffed (topByte s.c.acc)).length
    · refine ⟨0, by omega, by simpa using hp, by simpa using hfirst, ?_⟩
      rw [countFlushOne_overflow op hfirst, State.countFlushed_zero]
      rfl
    · rw [countFlushOne_fits op (by omega), Run.go_andThen]
      have hk' : (s.countFlushed 1).c.nb / 8 = k := by simp only [State.countFlushed]; omega
      have hacc : (s.countFlushed 1).c.acc = s.c.acc <<< 8 := rfl
      have htot : (s.countFlushed 1).c.total = s.c.total + (stuffed (topByte s.c.acc)).length := by
        simp [State.countFlushed]
      obtain ⟨j, h1, h2, h3, h4⟩ := ih (s := s.countFlushed 1) (by omega) (by omega) (by rw [hk', hacc, htot]; omega)
      rw [hk', hacc, htot] at *
      refine ⟨j + 1, by omega, ?_, ?_, ?_⟩
      · rw [flushOutput_succ, List.length_append]; omega
      · rw [flushOutput_succ, List.length_append]; omega
      · rw [h4, State.countFlushed_succ]

/-- CountFlush above 2^64 − 1: the completed turns are kept (rules R199, R212). -/
theorem countFlush_overflow (op : Opcode) {s : State} (hp : s.c.total ≤ Config.totalMax)
    (ho : Config.totalMax < s.c.total + (flushOutput s.c.acc (s.c.nb / 8)).length) :
    ∃ j, j < s.c.nb / 8 ∧ s.c.total + (flushOutput s.c.acc j).length ≤ Config.totalMax ∧
      Config.totalMax < s.c.total + (flushOutput s.c.acc (j + 1)).length ∧
      countFlush op s = raise .counterOverflow .counter op (s.countFlushed j) :=
  countFlushLoop_overflow op _ (by omega) hp ho

/-! ### Every marker a flush emits is stuffed (rules R10, R62) -/

theorem flushOutput_stuffed (acc : Word) (k : Nat) {i : Nat} (h : (flushOutput acc k)[i]? = some 0xFF#8) :
    (flushOutput acc k)[i + 1]? = some 0x00#8 := by
  induction k generalizing acc i with
  | zero => simp at h
  | succ k ih =>
    rw [flushOutput_succ] at h ⊢
    by_cases hb : topByte acc = 0xFF#8
    · have hs : stuffed (topByte acc) = [0xFF#8, 0x00#8] := by rw [stuffed, if_pos hb, hb]
      rw [hs] at h ⊢
      match i with
      | 0 => rfl
      | 1 => simp at h
      | i + 2 => exact ih _ (by simpa using h)
    · have hs : stuffed (topByte acc) = [topByte acc] := if_neg hb
      rw [hs] at h ⊢
      match i with
      | 0 => simp [hb] at h
      | i + 1 => exact ih _ (by simpa using h)

end Sys2Proof.Machine
end

