-- ==== Sys2Proof/Laws/Sink.lean ====
section
/-! SUPPORT. One lemma per sink operation: each outcome of Commit and Finalize, with its condition and the state it leaves. -/

namespace Sys2Proof.Machine

/-- The state after the acknowledgement and one draw. -/
abbrev acknowledgedDraw (n : Nat) (s : State) : State := (acknowledge n s).withDraw

/-! ### Replies -/

theorem drawReply_ok {s : State} (h : oracleAnswer s.oracle = true) (g : State → State) :
    drawReply s g = { verdict := .ok, state := g s.withDraw } := if_pos h

theorem drawReply_fail {s : State} (h : oracleAnswer s.oracle = false) (g : State → State) :
    drawReply s g = { verdict := .fail, state := breakSink s.withDraw } := if_neg (by simp [h])

/-! ### Commit, outcome by outcome (rules R67, R75, R79) -/

theorem sinkCommit_notOpen {s : State} (h : s.sink.state ≠ .opened) (op : Opcode) (n e : Nat) :
    sinkCommit op n e s = { verdict := .raised, state := latchFault .sinkNotOpen .sink op s } := if_neg h

theorem sinkCommit_fits {s : State} (ho : s.sink.state = .opened) (hk : s.cfg.sinkKind = .growable) (op : Opcode)
    (n e : Nat) (h : s.sink.used + n + e ≤ s.sink.cap) :
    sinkCommit op n e s = { verdict := .ok, state := acknowledge n s } := by
  rw [sinkCommit, if_pos ho, commitBackend, acknowledge_cfg, hk]
  exact if_pos h

theorem sinkCommit_grows {s : State} (ho : s.sink.state = .opened) (hk : s.cfg.sinkKind = .growable) (op : Opcode)
    (n e : Nat) (h : s.sink.cap < s.sink.used + n + e)
    (hm : s.cfg.fits (max (2 * s.sink.cap) (s.sink.used + n + e)) = true) :
    sinkCommit op n e s =
      drawReply (acknowledge n s) (growTo (max (2 * s.sink.cap) (s.sink.used + n + e))) := by
  rw [sinkCommit, if_pos ho, commitBackend, acknowledge_cfg, hk]
  show commitGrowable _ _ = _
  rw [commitGrowable, if_neg (by simpa using h)]
  exact if_pos hm

theorem sinkCommit_growLimit {s : State} (ho : s.sink.state = .opened) (hk : s.cfg.sinkKind = .growable) (op : Opcode)
    (n e : Nat) (h : s.sink.cap < s.sink.used + n + e)
    (hm : s.cfg.fits (max (2 * s.sink.cap) (s.sink.used + n + e)) = false) :
    sinkCommit op n e s = { verdict := .fail, state := breakSink (acknowledge n s) } := by
  rw [sinkCommit, if_pos ho, commitBackend, acknowledge_cfg, hk]
  show commitGrowable _ _ = _
  rw [commitGrowable, if_neg (by simpa using h)]
  exact if_neg (by simp [newCapacity, hm])

theorem sinkCommit_resizes {s : State} (ho : s.sink.state = .opened) (hk : s.cfg.sinkKind = .external) (op : Opcode)
    (n e : Nat) (hm : s.cfg.fits (s.sink.used + n + e) = true) :
    sinkCommit op n e s = drawReply (acknowledge n s) (resizeTo (s.sink.used + n + e)) := by
  rw [sinkCommit, if_pos ho, commitBackend, acknowledge_cfg, hk]
  exact if_pos hm

theorem sinkCommit_resizeLimit {s : State} (ho : s.sink.state = .opened) (hk : s.cfg.sinkKind = .external)
    (op : Opcode) (n e : Nat) (hm : s.cfg.fits (s.sink.used + n + e) = false) :
    sinkCommit op n e s = { verdict := .fail, state := breakSink (acknowledge n s) } := by
  rw [sinkCommit, if_pos ho, commitBackend, acknowledge_cfg, hk]
  exact if_neg (by simp [hm])

/-- The states a successful Commit can leave. -/
inductive CommitOk (n e : Nat) (s : State) : State → Prop where
  | fits (hk : s.cfg.sinkKind = .growable) (h : s.sink.used + n + e ≤ s.sink.cap) : CommitOk n e s (acknowledge n s)
  | grows (hk : s.cfg.sinkKind = .growable) (h : s.sink.cap < s.sink.used + n + e)
      (hm : s.cfg.fits (max (2 * s.sink.cap) (s.sink.used + n + e)) = true) :
      CommitOk n e s (growTo (max (2 * s.sink.cap) (s.sink.used + n + e)) (acknowledgedDraw n s))
  | resizes (hk : s.cfg.sinkKind = .external) (hm : s.cfg.fits (s.sink.used + n + e) = true) :
      CommitOk n e s (resizeTo (s.sink.used + n + e) (acknowledgedDraw n s))

/-- The states a failed Commit can leave: the size limit stopped it, or the oracle answered false. -/
inductive CommitFail (n : Nat) (s : State) : State → Prop where
  | limit : CommitFail n s (breakSink (acknowledge n s))
  | draw : CommitFail n s (breakSink (acknowledgedDraw n s))

/-- Everything Commit can answer (rules R67 to R71). -/
theorem sinkCommit_cases (op : Opcode) (n e : Nat) (s : State) :
    s.sink.state ≠ .opened ∧
        sinkCommit op n e s = { verdict := .raised, state := latchFault .sinkNotOpen .sink op s } ∨
      s.sink.state = .opened ∧ (∃ t, CommitOk n e s t ∧ sinkCommit op n e s = { verdict := .ok, state := t }) ∨
      s.sink.state = .opened ∧ (∃ t, CommitFail n s t ∧ sinkCommit op n e s = { verdict := .fail, state := t }) := by
  by_cases ho : s.sink.state = .opened
  · refine .inr ?_
    have drawn : ∀ g : State → State, CommitOk n e s (g (acknowledgedDraw n s)) →
        sinkCommit op n e s = drawReply (acknowledge n s) g →
        s.sink.state = .opened ∧ (∃ t, CommitOk n e s t ∧ sinkCommit op n e s = { verdict := .ok, state := t }) ∨
        s.sink.state = .opened ∧ (∃ t, CommitFail n s t ∧ sinkCommit op n e s = { verdict := .fail, state := t }) := by
      intro g hg he
      cases ha : oracleAnswer (acknowledge n s).oracle
      · exact .inr ⟨ho, _, .draw, he.trans (drawReply_fail ha g)⟩
      · exact .inl ⟨ho, _, hg, he.trans (drawReply_ok ha g)⟩
    cases hk : s.cfg.sinkKind
    · by_cases h : s.sink.used + n + e ≤ s.sink.cap
      · exact .inl ⟨ho, _, .fits hk h, sinkCommit_fits ho hk op n e h⟩
      · cases hm : s.cfg.fits (max (2 * s.sink.cap) (s.sink.used + n + e))
        · exact .inr ⟨ho, _, .limit, sinkCommit_growLimit ho hk op n e (by omega) hm⟩
        · exact drawn _ (.grows hk (by omega) hm) (sinkCommit_grows ho hk op n e (by omega) hm)
    · cases hm : s.cfg.fits (s.sink.used + n + e)
      · exact .inr ⟨ho, _, .limit, sinkCommit_resizeLimit ho hk op n e hm⟩
      · exact drawn _ (.resizes hk hm) (sinkCommit_resizes ho hk op n e hm)
  · exact .inl ⟨ho, sinkCommit_notOpen ho op n e⟩

/-- What every successful Commit keeps: all but the sink and the oracle, and the committed bytes (rules R67, R69). -/
structure CommitKeeps (n : Nat) (s t : State) : Prop where
  cfg : t.cfg = s.cfg
  w : t.w = s.w
  c : t.c = s.c
  resp : t.resp = s.resp
  fault : t.fault = s.fault
  port : t.port = s.port
  delivered : t.delivered = s.delivered
  state : t.sink.state = s.sink.state
  used : t.sink.used = s.sink.used + n
  bytes : ∀ a, a < s.sink.used + n → t.sink.buf.read a = s.sink.buf.read a

theorem CommitOk.keeps {n e : Nat} {s t : State} (h : CommitOk n e s t) : CommitKeeps n s t := by
  cases h with
  | fits => exact ⟨rfl, rfl, rfl, rfl, rfl, rfl, rfl, rfl, rfl, fun _ _ => rfl⟩
  | grows =>
    exact ⟨rfl, rfl, rfl, rfl, rfl, rfl, rfl, rfl, rfl, fun a ha => by
      simp only [growTo_sink, State.withDraw_sink, acknowledge_sink, Memory.read_regrow, if_pos ha]⟩
  | resizes =>
    exact ⟨rfl, rfl, rfl, rfl, rfl, rfl, rfl, rfl, rfl, fun a ha => by
      simp only [resizeTo_sink, State.withDraw_sink, acknowledge_sink, Memory.read_regrow, if_pos ha]⟩

/-! ### Finalize (rules R72, R77, R80) -/

theorem sinkFinalize_opened {s : State} (h : s.sink.state = .opened) (op : Opcode) :
    sinkFinalize op s = drawReply s trimSink := if_pos h

/-- Everything Finalize can answer on an OPEN sink. -/
theorem sinkFinalize_cases {s : State} (h : s.sink.state = .opened) (op : Opcode) :
    oracleAnswer s.oracle = true ∧ sinkFinalize op s = { verdict := .ok, state := trimSink s.withDraw } ∨
      oracleAnswer s.oracle = false ∧ sinkFinalize op s = { verdict := .fail, state := breakSink s.withDraw } := by
  rw [sinkFinalize_opened h]
  cases ha : oracleAnswer s.oracle
  · exact .inr ⟨rfl, drawReply_fail ha _⟩
  · exact .inl ⟨rfl, drawReply_ok ha _⟩

end Sys2Proof.Machine
end

