-- ==== Sys2Proof/Laws/Exec.lean ====
section
/-! SUPPORT. What `exec` runs for each command once its guards are known to pass or fail. -/

namespace Sys2Proof.Machine

/-- A faulted block performs no command (rule R213). -/
theorem exec_faulted {s : State} (h : faultV s = true) (i : Instr) : exec i s = .next s := by
  cases i <;>
    simp only [exec, execSreset, execSrelease, execReserve, execPutBits, execFlushBits, execPutByte, execPutBytes,
      execPutPackedCode, execFlush, execFinalize, execCaddBits, execCaddPackedCode, execCsize, whenRunning_faulted h]

/-! ### Packed codes -/

theorem packedPattern_eq (code : Word) : packedPattern code = BitVec.ofNat 32 (code.toNat / 256) := by
  apply BitVec.eq_of_toNat_eq
  have := code.isLt
  simp only [packedPattern, Config.packedLenBits, BitVec.toNat_ushiftRight, Nat.shiftRight_eq_div_pow,
    BitVec.toNat_ofNat]
  omega

theorem packedLength_toNat (code : Word) : (packedLength code).toNat = code.toNat % 256 := by
  simp [packedLength, Config.packedLenBits, BitVec.extractLsb'_toNat]

/-! ### The sink commands -/

theorem exec_sreset {s : State} (h : Running s) : exec .sreset s = .next (abandonWriter (sinkReset s)) := by
  show execSreset s = _
  rw [execSreset, whenRunning_running h]; rfl

theorem exec_srelease {s : State} (h : Running s) : exec .srelease s = .next (releaseResult s) := by
  show execSrelease s = _
  rw [execSrelease, whenRunning_running h]; rfl

/-! ### The writer commands in mode ACTIVE -/

theorem exec_reserve {s : State} (h : WriterReady s) (size : Word) :
    exec (.reserve size) s = .next (reserveResult size (sinkCommit 0x3#4 s.w.pos size.toNat s)) := by
  show execReserve size s = _
  rw [execReserve, whenRunning_running h.1, writerGuard_active h.2]; rfl

theorem exec_finalize {s : State} (h : WriterReady s) :
    exec .finalize s = .next (finalizeAfterCommit 0xA#4 (sinkCommit 0xA#4 s.w.pos 0 s)) := by
  show execFinalize s = _
  rw [execFinalize, whenRunning_running h.1, writerGuard_active h.2]; rfl

theorem exec_flushBits {s : State} (h : WriterReady s) : exec .flushBits s = (flushBytes 0x5#4 s).outcome := by
  show execFlushBits s = _
  rw [execFlushBits, whenRunning_running h.1, writerGuard_active h.2]; rfl

theorem exec_flush {s : State} (h : WriterReady s) : exec .flush s = (flushBytes 0x9#4 (padBits s)).outcome := by
  show execFlush s = _
  rw [execFlush, whenRunning_running h.1, writerGuard_active h.2]; rfl

/-- PUTBITS and PUTPACKEDCODE run one body on their value and count (rules R150, R170, R171). -/
theorem exec_putCode {i : Instr} {v : Word} {n : Nat} (h : codeOperands i = some (.writer, v, n)) (s : State) :
    exec i s = whenRunning s (putCode (opcodeOf i) v n) := by
  cases i <;> simp [codeOperands] at h
  · obtain ⟨rfl, rfl⟩ := h; rfl
  · obtain ⟨rfl, rfl⟩ := h
    rename_i code
    show execPutPackedCode code s = _
    rw [execPutPackedCode, packedPattern_eq, packedLength_toNat]

theorem putCode_ok {s : State} (h : s.w.mode = .active) {v : Word} {n : Nat} (hv : CodeOk v n) (op : Opcode) :
    putCode op v n s = (flushBytes op s).andThen fun s => .go (appendCode v n s) := by
  rw [putCode, writerGuard_active h, Run.go_andThen, checkCode_ok hv, Run.go_andThen]

theorem exec_putByte {s : State} (h : WriterReady s) (hn : s.w.nb = 0) (b : Byte) :
    exec (.putByte b) s = (emitByte 0x6#4 b s).outcome := by
  show execPutByte b s = _
  rw [execPutByte, whenRunning_running h.1, writerGuard_active h.2, Run.go_andThen, requireNoPending,
    if_neg (by simpa using hn)]
  rfl

theorem exec_putBytes {s : State} (h : WriterReady s) (hn : s.w.nb = 0) {size : Word} {p : List Byte}
    (hp : p.length = size.toNat) : exec (.putBytes size p) s = (emitRaw 0x7#4 p s).outcome := by
  show execPutBytes size p s = _
  rw [execPutBytes, whenRunning_running h.1, requirePayload, if_pos hp, Run.go_andThen, writerGuard_active h.2,
    Run.go_andThen, requireNoPending, if_neg (by simpa using hn)]
  rfl

/-! ### The counter commands -/

/-- CADDBITS and CADDPACKEDCODE run one body on their value and count (rules R192, R194, R195). -/
theorem exec_addCode {i : Instr} {v : Word} {n : Nat} (h : codeOperands i = some (.counter, v, n)) (s : State) :
    exec i s = whenRunning s (addCode (opcodeOf i) v n) := by
  cases i <;> simp [codeOperands] at h
  · obtain ⟨rfl, rfl⟩ := h; rfl
  · obtain ⟨rfl, rfl⟩ := h
    rename_i code
    show execCaddPackedCode code s = _
    rw [execCaddPackedCode, packedPattern_eq, packedLength_toNat]

theorem addCode_ok {v : Word} {n : Nat} (hv : CodeOk v n) (op : Opcode) (s : State) :
    addCode op v n s = (countFlush op s).andThen fun s => .go (counterAppend v n s) := by
  rw [addCode, checkCode_ok hv, Run.go_andThen]

end Sys2Proof.Machine
end

