-- ==== Sys2Proof/Laws/Commands.lean ====
section
/-! SUPPORT. Everything the bodies of the commands can do, in every state: the writer's emitting bodies, the counter's adding
body, the replies of Commit, SRELEASE, and when the model does not stop. -/

namespace Sys2Proof.Machine

/-! ### Guards, outcome by outcome -/

theorem writerGuard_cases (op : Opcode) (s : State) :
    s.w.mode = .active ∧ writerGuard op s = .go s ∨
      s.w.mode ≠ .active ∧ writerGuard op s = raise .writerNotActive .writer op s := by
  by_cases h : s.w.mode = .active
  · exact .inl ⟨h, writerGuard_active h op⟩
  · exact .inr ⟨h, writerGuard_inactive h op⟩

theorem requireNoPending_cases (op : Opcode) (s : State) :
    s.w.nb = 0 ∧ requireNoPending op s = .go s ∨
      s.w.nb ≠ 0 ∧ requireNoPending op s = raise .pendingBits .writer op s := by
  by_cases h : s.w.nb = 0
  · exact .inl ⟨h, if_neg (by simpa using h)⟩
  · exact .inr ⟨h, if_pos h⟩

theorem requirePayload_cases (op : Opcode) (size : Word) (p : List Byte) (s : State) :
    p.length = size.toNat ∧ requirePayload op size p s = .go s ∨
      p.length ≠ size.toNat ∧ requirePayload op size p s = raise .illegalCommand .decoder op s := by
  by_cases h : p.length = size.toNat
  · exact .inl ⟨h, if_pos h⟩
  · exact .inr ⟨h, if_neg h⟩

theorem running_fault_eq {s t : State} (h : t.fault = s.fault) : faultV t = faultV s := by
  unfold faultV; rw [h]

/-- After a raise the block is not running. -/
theorem not_running_latchFault (k : Cause) (u : BlockUnit) (op : Opcode) (s : State) :
    ¬ Running (latchFault k u op s) := fun h => by
  have := faultV_latchFault k u op s
  rw [h] at this
  cases this

theorem latchFault_fault_cases (k : Cause) (u : BlockUnit) (op : Opcode) (s : State) :
    (latchFault k u op s).fault = s.fault ∨ (latchFault k u op s).fault = faultWord k u op := by
  unfold latchFault
  split
  · exact .inl rfl
  · exact .inr rfl

/-! ### The writer's emitting bodies -/

/-- Everything a writer body that emits bytes can do. -/
structure WriterOutcome (op : Opcode) (s t : State) : Prop where
  frame : WriterFrame s t
  fits : s.w.pos ≤ s.w.rsv → t.w.pos ≤ t.w.rsv
  memory : s.sink.buf.wf → t.sink.buf.wf
  known : t.sink.buf.Known (s.sink.used + s.w.pos) (s.sink.used + t.w.pos)
  low : s.w.nb ≤ 31 → s.w.acc <<< s.w.nb = 0#32 → t.w.acc <<< t.w.nb = 0#32
  count : s.w.nb ≤ 31 → t.w.nb ≤ 32 ∧ (Running t → t.w.nb ≤ 31)
  fault : t.fault = s.fault ∨ ∃ c u, causeUnit c u = true ∧ t.fault = faultWord c u op
  running : Running t → t.fault = s.fault

theorem WriterOutcome.raised (op : Opcode) (s : State) {c : Cause} {u : BlockUnit} (h : causeUnit c u = true) :
    WriterOutcome op s (latchFault c u op s) where
  frame := by constructor <;> simp
  fits := by simp
  memory := by simp
  known := by simpa using Memory.known_nothing _ _
  low := by simp
  count := fun hn => ⟨by simp; omega, fun hr => absurd hr (not_running_latchFault c u op s)⟩
  fault := (latchFault_fault_cases c u op s).imp id fun e => ⟨c, u, h, e⟩
  running := fun hr => absurd hr (not_running_latchFault c u op s)

theorem Emitting.running {op : Opcode} {s t : State} (h : Emitting op s t) (hr : Running t) : t.fault = s.fault := by
  rcases h.fault with e | e
  · exact e
  · have hf := faultV_faultWord .overrun .writer op
    rw [← e] at hf
    have hn : t.fault.getLsbD 0 = false := hr
    rw [hf] at hn
    cases hn

/-- An emission whose pending bits are known is an outcome. -/
theorem Emitting.outcome {op : Opcode} {s t : State} (h : Emitting op s t)
    (hl : s.w.nb ≤ 31 → s.w.acc <<< s.w.nb = 0#32 → t.w.acc <<< t.w.nb = 0#32)
    (hc : s.w.nb ≤ 31 → t.w.nb ≤ 32 ∧ (Running t → t.w.nb ≤ 31)) : WriterOutcome op s t :=
  ⟨h.frame, h.fits, h.memory, h.known, hl, hc, h.fault.imp id fun e => ⟨_, _, rfl, e⟩, h.running⟩

theorem Emitting.flushed {op : Opcode} {s t : State} (h : Emitting op s t) (hs : Shifted s t) : WriterOutcome op s t :=
  h.outcome (fun _ h0 => by rw [hs.low, h0]) fun hn => by
    obtain ⟨j, _, hj⟩ := hs
    exact ⟨by omega, fun _ => by omega⟩

/-- FLUSHBITS' body (rule R155). -/
theorem flushBytes_outcome (op : Opcode) (s : State) : (flushBytes op s).Leaves (WriterOutcome op s) :=
  (flushBytes_leaves op s).imp fun _ h => h.1.flushed h.2

theorem appendBits_low {acc v : Word} {nb n : Nat} (hn : nb ≤ 7) (h : CodeOk v n) (hl : acc <<< nb = 0#32) :
    appendBits acc v (nb + n) <<< (nb + n) = 0#32 := by
  obtain ⟨h1, h2, h3⟩ := h
  rw [appendBits, BitVec.shiftLeft_or_distrib, BitVec.shiftLeft_add, hl, ← BitVec.shiftLeft_add,
    show 32 - (nb + n) + (nb + n) = 32 by omega]
  simp

/-- The body of PUTBITS and PUTPACKEDCODE (rules R150, R170). -/
theorem putCode_outcome (op : Opcode) (v : Word) (n : Nat) (s : State) :
    (putCode op v n s).Leaves (WriterOutcome op s) := by
  unfold putCode
  rcases writerGuard_cases op s with ⟨_, e⟩ | ⟨_, e⟩ <;> rw [e]
  · rw [Run.go_andThen]
    rcases checkCode_cases .writer op v n s with ⟨e, hc⟩ | e | e <;> rw [e]
    · rw [Run.go_andThen]
      have hl := flushBytes_leaves op s
      cases hf : flushBytes op s with
      | go u =>
        rw [hf] at hl
        have hnb := flushBytes_go hf
        have h7 : u.w.nb ≤ 7 := by omega
        exact Emitting.outcome (hl.1.bits _ _)
          (fun _ h0 => appendBits_low h7 hc (by rw [hl.2.low, h0]))
          fun _ => ⟨by show u.w.nb + n ≤ 32; have := hc.2.1; omega,
            fun _ => by show u.w.nb + n ≤ 31; have := hc.2.1; omega⟩
      | ended u =>
        rw [hf] at hl
        exact hl.1.flushed hl.2
      | stop f => trivial
    · exact .raised op s rfl
    · exact .raised op s rfl
  · exact .raised op s rfl

/-- FLUSH's body (rules R175 to R177). -/
theorem paddedFlush_outcome (op : Opcode) (s : State) :
    (flushBytes op (padBits s)).Leaves (WriterOutcome op s) := by
  have key : ∀ u, Emitting op (padBits s) u → Shifted (padBits s) u → (Running u → u.w.nb ≤ 31) →
      WriterOutcome op s u := fun u h1 h2 h3 =>
    Emitting.outcome (Emitting.afterBits h1) (fun hn h0 => by rw [h2.low]; exact padOnes_shift hn h0) fun hn => by
      obtain ⟨j, _, hj⟩ := h2
      have e : (padBits s).w.nb = s.w.nb + padCount s.w.nb := rfl
      unfold padCount at e
      exact ⟨by omega, h3⟩
  have hl := flushBytes_leaves op (padBits s)
  have he := flushBytes_endsFaulted op (padBits s)
  cases hf : flushBytes op (padBits s) with
  | go u =>
    rw [hf] at hl
    exact key u hl.1 hl.2 fun _ => by have := flushBytes_go hf; omega
  | ended u =>
    rw [hf] at hl he
    exact key u hl.1 hl.2 fun hr => by
      have hv : faultV u = true := he
      rw [hr] at hv
      cases hv
  | stop f => trivial

theorem emitRaw_bits (op : Opcode) (bs : List Byte) (s : State) :
    (emitRaw op bs s).Leaves fun t => t.w.acc = s.w.acc ∧ t.w.nb = s.w.nb := by
  induction bs generalizing s with
  | nil => exact ⟨rfl, rfl⟩
  | cons b bs ih =>
    exact (emitByte_bits op b s).andThen (fun _ h => h) fun t ht =>
      (ih t).imp fun _ hu => ⟨hu.1.trans ht.1, hu.2.trans ht.2⟩

theorem Run.Leaves.both {r : Run} {P Q : State → Prop} (h : r.Leaves P) (k : r.Leaves Q) :
    r.Leaves fun s => P s ∧ Q s := by
  cases r with
  | go s => exact ⟨h, k⟩
  | ended s => exact ⟨h, k⟩
  | stop f => trivial

theorem Emitting.raw {op : Opcode} {s t : State} (h : Emitting op s t) (hb : t.w.acc = s.w.acc ∧ t.w.nb = s.w.nb) :
    WriterOutcome op s t :=
  h.outcome (fun _ h0 => by rw [hb.1, hb.2, h0]) fun hn => by rw [hb.2]; exact ⟨by omega, fun _ => hn⟩

/-- PUTBYTE's body (rule R160). -/
theorem emitByte_outcome (op : Opcode) (b : Byte) (s : State) : (emitByte op b s).Leaves (WriterOutcome op s) :=
  ((emitByte_leaves op b s).both (emitByte_bits op b s)).imp fun _ h => h.1.raw h.2

/-- PUTBYTES' body (rule R165). -/
theorem emitRaw_outcome (op : Opcode) (bs : List Byte) (s : State) : (emitRaw op bs s).Leaves (WriterOutcome op s) :=
  ((emitRaw_leaves op bs s).both (emitRaw_bits op bs s)).imp fun _ h => h.1.raw h.2

/-! ### The counter's adding body -/

/-- Everything the adding body of the counter can do. -/
structure CounterOutcome (op : Opcode) (s t : State) : Prop where
  frame : CounterFrame s t
  resp : t.resp = s.resp
  low : s.c.nb ≤ 31 → s.c.acc <<< s.c.nb = 0#32 → t.c.acc <<< t.c.nb = 0#32
  count : s.c.nb ≤ 31 → t.c.nb ≤ 31
  total : s.c.total ≤ Config.totalMax → t.c.total ≤ Config.totalMax
  fault : t.fault = s.fault ∨ ∃ c u, causeUnit c u = true ∧ t.fault = faultWord c u op

theorem CounterOutcome.raised (op : Opcode) (s : State) {c : Cause} {u : BlockUnit} (h : causeUnit c u = true) :
    CounterOutcome op s (latchFault c u op s) where
  frame := by constructor <;> simp
  resp := by simp
  low := by simp
  count := by simp
  total := by simp
  fault := (latchFault_fault_cases c u op s).imp id fun e => ⟨c, u, h, e⟩

theorem Counting.outcome {op : Opcode} {s t : State} (h : Counting op s t) : CounterOutcome op s t where
  frame := h.frame
  resp := h.resp
  low := fun _ hl => by
    obtain ⟨j, h1, h2⟩ := h.bits
    rw [h1, ← BitVec.shiftLeft_add, show 8 * j + t.c.nb = s.c.nb by omega, hl]
  count := fun hn => by obtain ⟨j, _, h2⟩ := h.bits; omega
  total := h.total
  fault := h.fault.imp id fun e => ⟨_, _, rfl, e⟩

/-- The body of CADDBITS and CADDPACKEDCODE (rules R192, R194). -/
theorem addCode_outcome (op : Opcode) (v : Word) (n : Nat) (s : State) :
    (addCode op v n s).Leaves (CounterOutcome op s) := by
  unfold addCode
  rcases checkCode_cases .counter op v n s with ⟨e, hc⟩ | e | e <;> rw [e]
  · rw [Run.go_andThen]
    have hl := countFlush_leaves op s
    cases hf : countFlush op s with
    | go u =>
      rw [hf] at hl
      have hnb := countFlush_go hf
      have h7 : u.c.nb ≤ 7 := by omega
      have k := Counting.outcome hl
      exact ⟨⟨k.frame.cfg, k.frame.w, k.frame.sink, k.frame.port, k.frame.delivered, k.frame.oracle⟩, k.resp,
        fun hn h0 => appendBits_low h7 hc (k.low hn h0),
        fun _ => by show u.c.nb + n ≤ 31; have := hc.2.1; omega, k.total, k.fault⟩
    | ended u =>
      rw [hf] at hl
      exact Counting.outcome hl
    | stop f => trivial
  · exact .raised op s rfl
  · exact .raised op s rfl

/-! ### The sink -/

theorem fits_mono {c : Config} {a b : Nat} (h : a ≤ b) (hb : c.fits b = true) : c.fits a = true := by
  unfold Config.fits at *
  cases hm : c.maxBuf with
  | none => rfl
  | some m => rw [hm] at hb; exact decide_eq_true (h.trans (of_decide_eq_true hb))

/-- What a successful Commit gives: the canonical form, the room asked for, and the sizes within MAX_BUF (rules R15, R68). -/
structure CommitGives (n e : Nat) (s t : State) : Prop where
  memory : s.sink.buf.wf → t.sink.buf.wf
  room : (s.cfg.sinkKind = .growable → s.sink.buf.len = s.sink.cap) → s.sink.used + n + e ≤ t.sink.buf.len
  capacity : (s.cfg.sinkKind = .growable → s.sink.buf.len = s.sink.cap) → s.cfg.sinkKind = .growable →
    t.sink.buf.len = t.sink.cap
  noCapacity : s.cfg.sinkKind = .external → t.sink.cap = s.sink.cap
  bounded : s.cfg.fits s.sink.cap = true → (s.cfg.sinkKind = .growable → s.sink.buf.len = s.sink.cap) →
    s.cfg.fits (s.sink.used + n + e) = true ∧ s.cfg.fits t.sink.cap = true ∧ s.cfg.fits t.sink.buf.len = true

theorem CommitOk.gives {n e : Nat} {s t : State} (h : CommitOk n e s t) : CommitGives n e s t := by
  cases h with
  | fits hk h =>
    exact ⟨id, fun hc => by simp [hc hk, h], fun hc _ => by simp [hc hk], fun _ => rfl,
      fun hb hc => ⟨fits_mono h hb, hb, by simpa [hc hk] using hb⟩⟩
  | grows hk h hm =>
    exact ⟨fun hw => Memory.regrow_wf hw (by show s.sink.used + n ≤ max _ _; omega), fun _ => by simp,
      fun _ _ => rfl, fun hk' => by (rw [hk] at hk'; cases hk'),
      fun _ _ => ⟨fits_mono (by omega) hm, hm, hm⟩⟩
  | resizes hk hm =>
    exact ⟨fun hw => Memory.regrow_wf hw (by show s.sink.used + n ≤ s.sink.used + n + e; omega), fun _ => by simp,
      fun _ hk' => by (rw [hk] at hk'; cases hk'), fun _ => rfl, fun hb _ => ⟨hm, hb, hm⟩⟩

/-- What a failed Commit leaves (rules R71, R84). -/
structure CommitBreaks (n : Nat) (s t : State) : Prop where
  cfg : t.cfg = s.cfg
  w : t.w = s.w
  c : t.c = s.c
  resp : t.resp = s.resp
  fault : t.fault = s.fault
  port : t.port = s.port
  delivered : t.delivered = s.delivered
  state : t.sink.state = .broken
  used : t.sink.used = s.sink.used + n
  cap : t.sink.cap = s.sink.cap
  buf : t.sink.buf = Memory.unknown t.sink.buf.len

theorem CommitFail.breaks {n : Nat} {s t : State} (h : CommitFail n s t) : CommitBreaks n s t := by
  cases h <;> exact ⟨rfl, rfl, rfl, rfl, rfl, rfl, rfl, rfl, rfl, rfl, rfl⟩

/-- Everything SRELEASE can leave (rules R133, R134). -/
theorem releaseResult_cases (s : State) :
    s.cfg.sinkKind = .growable ∧ s.sink.state = .finalized ∧ releaseResult s = deliver s ∨
      releaseResult s = latchFault .releaseInvalid .sink 0x2#4 s := by
  unfold releaseResult
  by_cases h1 : s.cfg.sinkKind = .growable
  · by_cases h2 : s.sink.state = .finalized
    · exact .inl ⟨h1, h2, by simp [h1, h2]⟩
    · exact .inr (by simp [h1, h2]; rfl)
  · exact .inr (by simp [h1]; rfl)

/-! ### Where the model does not stop -/

theorem whenRunning_answers {s : State} {k : State → Run} (h : (k s).Answers) : ∃ t, whenRunning s k = .next t := by
  unfold whenRunning
  split
  · exact ⟨s, rfl⟩
  · exact h.next

theorem writerGuard_answers (op : Opcode) (s : State) {k : State → Run} (h : s.w.mode = .active → (k s).Answers) :
    ((writerGuard op s).andThen k).Answers := by
  rcases writerGuard_cases op s with ⟨hm, e⟩ | ⟨_, e⟩ <;> rw [e]
  · exact h hm
  · trivial

theorem Run.andThen_assoc (r : Run) (f g : State → Run) :
    (r.andThen f).andThen g = r.andThen fun s => (f s).andThen g := by cases r <;> rfl

theorem putCode_answers (op : Opcode) (v : Word) (n : Nat) {s : State} (h : s.w.mode = .active → RegionInside s) :
    (putCode op v n s).Answers := by
  unfold putCode
  rw [Run.andThen_assoc, Run.andThen_assoc]
  refine writerGuard_answers op s fun hm => ?_
  rcases checkCode_cases .writer op v n s with ⟨e, _⟩ | e | e <;> rw [e]
  · rw [Run.go_andThen]
    exact (flushBytes_answers (h hm) op).andThen (flushBytes_leaves op s) fun _ _ => trivial
  · trivial
  · trivial

theorem addCode_answers (op : Opcode) (v : Word) (n : Nat) (s : State) : (addCode op v n s).Answers := by
  unfold addCode
  rcases checkCode_cases .counter op v n s with ⟨e, _⟩ | e | e <;> rw [e]
  · rw [Run.go_andThen]
    exact (countFlush_answers op s).andThen (countFlush_leaves op s) fun _ _ => trivial
  · trivial
  · trivial

end Sys2Proof.Machine
end

