-- ==== Sys2Proof/Laws/Encoding.lean ====
section
/-! SUPPORT. Laws of the command word's fields: reading a field of a word built from fields gives it back, and the other way. -/

namespace Sys2Proof

theorem getLsbD_commandWord (op : Opcode) (n : BitVec 8) (a : Word) (i : Nat) :
    (commandWord op n a).getLsbD i =
      if i < 32 then a.getLsbD i else if i < 40 then n.getLsbD (i - 32)
      else if i < 44 then false else op.getLsbD (i - 44) := by
  rw [commandWord, BitVec.getLsbD_append, BitVec.getLsbD_append, BitVec.getLsbD_append]
  repeat' split
  all_goals first | rfl | omega | simp_all

@[simp] theorem opField_commandWord (op : Opcode) (n : BitVec 8) (a : Word) : opField (commandWord op n a) = op := by
  apply BitVec.eq_of_getLsbD_eq
  intro i hi
  rw [opField, BitVec.getLsbD_extractLsb', getLsbD_commandWord, if_neg (by omega), if_neg (by omega), if_neg (by omega)]
  simp [hi]

@[simp] theorem zField_commandWord (op : Opcode) (n : BitVec 8) (a : Word) : zField (commandWord op n a) = 0#4 := by
  apply BitVec.eq_of_getLsbD_eq
  intro i hi
  rw [zField, BitVec.getLsbD_extractLsb', getLsbD_commandWord, if_neg (by omega), if_neg (by omega), if_pos (by omega)]
  simp

@[simp] theorem nField_commandWord (op : Opcode) (n : BitVec 8) (a : Word) : nField (commandWord op n a) = n := by
  apply BitVec.eq_of_getLsbD_eq
  intro i hi
  rw [nField, BitVec.getLsbD_extractLsb', getLsbD_commandWord, if_neg (by omega), if_pos (by omega)]
  simp [hi]

@[simp] theorem aField_commandWord (op : Opcode) (n : BitVec 8) (a : Word) : aField (commandWord op n a) = a := by
  apply BitVec.eq_of_getLsbD_eq
  intro i hi
  rw [aField, BitVec.getLsbD_extractLsb', getLsbD_commandWord, if_pos (by omega)]
  simp [hi]

/-- A word with a zero Z field is the word of its fields. -/
theorem commandWord_fields {w : CmdWord} (h : zField w = 0#4) :
    commandWord (opField w) (nField w) (aField w) = w := by
  have hz : ∀ i, 40 ≤ i → i < 44 → w.getLsbD i = false := fun i h1 h2 => by
    have := congrArg (fun z => z.getLsbD (i - 40)) h
    simp only [zField, BitVec.getLsbD_extractLsb', BitVec.getLsbD_zero] at this
    simpa [show i - 40 < 4 by omega, show 40 + (i - 40) = i by omega] using this
  apply BitVec.eq_of_getLsbD_eq
  intro i hi
  rw [getLsbD_commandWord]
  simp only [opField, nField, aField, BitVec.getLsbD_extractLsb']
  split
  · simp [*]
  · split
    · simp [show i - 32 < 8 by omega, show 32 + (i - 32) = i by omega]
    · split
      · exact (hz i (by omega) (by omega)).symm
      · simp [show i - 44 < 4 by omega, show 44 + (i - 44) = i by omega]

@[simp] theorem byteField_setWidth (b : Byte) : byteField (b.setWidth 32) = b := by
  apply BitVec.eq_of_getLsbD_eq
  intro i hi
  simp [byteField, hi]
  omega

@[simp] theorem upperField_setWidth (b : Byte) : upperField (b.setWidth 32) = 0#24 := by
  apply BitVec.eq_of_getLsbD_eq
  intro i hi
  simp [upperField]

theorem setWidth_byteField {a : Word} (h : upperField a = 0#24) : (byteField a).setWidth 32 = a := by
  apply BitVec.eq_of_getLsbD_eq
  intro i hi
  have := congrArg (fun z => z.getLsbD (i - 8)) h
  simp only [upperField, BitVec.getLsbD_extractLsb', BitVec.getLsbD_zero] at this
  simp only [byteField, BitVec.getLsbD_setWidth, BitVec.getLsbD_extractLsb']
  by_cases h8 : i < 8
  · simp [h8, hi]
  · have h9 : a.getLsbD i = false := by
      simpa [show i - 8 < 24 by omega, show 8 + (i - 8) = i by omega] using this
    simp [h8, h9]

theorem upperField_eq_zero_iff (a : Word) : upperField a = 0#24 ↔ a.toNat < 256 := by
  rw [← BitVec.toNat_inj]
  simp only [upperField, BitVec.extractLsb'_toNat, Nat.shiftRight_eq_div_pow, BitVec.toNat_ofNat]
  have := a.isLt
  omega

end Sys2Proof
end

