-- ==== Sys2Proof/Laws/PerInstr.lean ====
section
/-! SUPPORT. A statement about every command, one lemma per constructor: its word carries its own opcode and a zero Z field
(rules R101, R104, R106). -/

namespace Sys2Proof.Laws.WordShape

/-- The word of a command carries the command's opcode in bits 47:44 and zeros in bits 43:40. -/
def Statement (i : Instr) : Prop := opField (encode i) = opcodeOf i ∧ zField (encode i) = 0#4

theorem sreset : Statement .sreset := ⟨opField_commandWord _ _ _, zField_commandWord _ _ _⟩

theorem srelease : Statement .srelease := ⟨opField_commandWord _ _ _, zField_commandWord _ _ _⟩

theorem reserve (size : Word) : Statement (.reserve size) := ⟨opField_commandWord _ _ _, zField_commandWord _ _ _⟩

theorem putBits (bits : Word) (nbits : BitVec 8) : Statement (.putBits bits nbits) :=
  ⟨opField_commandWord _ _ _, zField_commandWord _ _ _⟩

theorem flushBits : Statement .flushBits := ⟨opField_commandWord _ _ _, zField_commandWord _ _ _⟩

theorem putByte (value : Byte) : Statement (.putByte value) := ⟨opField_commandWord _ _ _, zField_commandWord _ _ _⟩

theorem putBytes (size : Word) (payload : List Byte) : Statement (.putBytes size payload) :=
  ⟨opField_commandWord _ _ _, zField_commandWord _ _ _⟩

theorem putPackedCode (code : Word) : Statement (.putPackedCode code) :=
  ⟨opField_commandWord _ _ _, zField_commandWord _ _ _⟩

theorem flush : Statement .flush := ⟨opField_commandWord _ _ _, zField_commandWord _ _ _⟩

theorem finalize : Statement .finalize := ⟨opField_commandWord _ _ _, zField_commandWord _ _ _⟩

theorem caddBits (bits : Word) (nbits : BitVec 8) : Statement (.caddBits bits nbits) :=
  ⟨opField_commandWord _ _ _, zField_commandWord _ _ _⟩

theorem caddPackedCode (code : Word) : Statement (.caddPackedCode code) :=
  ⟨opField_commandWord _ _ _, zField_commandWord _ _ _⟩

theorem csize : Statement .csize := ⟨opField_commandWord _ _ _, zField_commandWord _ _ _⟩

end Sys2Proof.Laws.WordShape
end

