-- ==== Sys2Proof/Tests/Slice0.lean ====
section
/-! SUPPORT. Tests on words and single steps with results from the spec's vectors (95_test_vectors.md), and for every obligation
with hypotheses a state and operands that meet them. -/

namespace Sys2Proof.Tests

open Sys2Proof Sys2Proof.Machine

/-! ### Helpers -/

/-- A growable board with a hint and no size limit. -/
def growable (hint : Nat) : Config := { sinkKind := .growable, initCapHint := hint, maxBuf := none }

/-- An external board with no size limit. -/
def external : Config := { sinkKind := .external, initCapHint := 0, maxBuf := none }

/-- Right after rst_all, with the oracle's answers placed. -/
def start (cfg : Config) (answers : List Bool) : State :=
  { State.powerOn cfg with oracle := { answers := answers, drawn := 0, breaks := 0 } }

/-- After RESERVE n on an empty growable sink, with some bits pending. -/
def ready (n : Nat) (acc : Word) (nb : Nat) : State :=
  { start (growable 0) [true, true] with
    w := { acc := acc, nb := nb, pos := 0, rsv := n, mode := .active }
    sink := { state := .opened, used := 0, cap := n, buf := Memory.unknown n } }

/-- The same with bits pending in the counter. -/
def counting (n : Nat) (acc : Word) (nb total : Nat) : State := { ready n acc nb with c := { acc := acc, nb := nb, total := total } }

/-- A state with one event on the port. -/
def offered (e : Event) (s : State) : State := { s with port := [e] }

/-- A DONE writer over a FINALIZED sink that holds one byte. -/
def finished (cfg : Config) (cap : Nat) : State :=
  { start cfg [] with
    w := { acc := 0#32, nb := 0, pos := 0, rsv := 0, mode := .done }
    sink := { state := .finalized, used := 1, cap := cap, buf := { len := 1, cells := [(0, 0xAB#8)] } } }

/-- An ACTIVE writer over a sink in a given state. -/
def underSink (st : SinkState) : State := { start (growable 0) [] with sink := { state := st, used := 0, cap := 0, buf := Memory.empty } }

/-- A fresh writer over a BROKEN sink whose contents do not even hold the bytes once acknowledged. -/
def overBroken : State :=
  { start (growable 0) [] with sink := { state := .broken, used := 5, cap := 0, buf := Memory.empty } }

/-- The state after one command, if it answers one. -/
def after (i : Instr) (s : State) : Option State :=
  match exec i s with
  | .next t => some t
  | .fault _ => none
  | .refused _ => none

/-! ### Well-formedness (rule R109) -/

theorem test_putBytes_length_checked : ¬ (Instr.putBytes 3#32 [1#8, 2#8]).WellFormed := by decide
theorem test_putBytes_well_formed : (Instr.putBytes 3#32 [1#8, 0xFF#8, 2#8]).WellFormed := by decide
theorem test_putBytes_empty_well_formed : (Instr.putBytes 0#32 []).WellFormed := by decide

/-! ### Decoding, one word per command: vectors E1 to E13, bit by bit for one command of each family -/

/-- OP 0001, Z 0000, N 00000000, A 32 zeros. -/
theorem test_decode_sreset :
    decode 0b000100000000000000000000000000000000000000000000#48 [] = .ok .sreset := by decide
theorem test_decode_srelease : decode 0x200000000000#48 [] = .ok .srelease := by decide
theorem test_decode_reserve : decode 0x300000000010#48 [] = .ok (.reserve 16#32) := by decide
/-- OP 0100, Z 0000, N 00000011, A ending in 101. -/
theorem test_decode_putBits :
    decode 0b010000000000001100000000000000000000000000000101#48 [] = .ok (.putBits 0b101#32 3#8) := by decide
theorem test_decode_flushBits : decode 0x500000000000#48 [] = .ok .flushBits := by decide
theorem test_decode_putByte : decode 0x6000000000FF#48 [] = .ok (.putByte 0xFF#8) := by decide
theorem test_decode_putBytes :
    decode 0x700000000003#48 [1#8, 0xFF#8, 2#8] = .ok (.putBytes 3#32 [1#8, 0xFF#8, 2#8]) := by decide
theorem test_decode_putPackedCode : decode 0x80000000FF08#48 [] = .ok (.putPackedCode 0xFF08#32) := by decide
theorem test_decode_flush : decode 0x900000000000#48 [] = .ok .flush := by decide
theorem test_decode_finalize : decode 0xA00000000000#48 [] = .ok .finalize := by decide
/-- OP 1011, Z 0000, N 00011000, A ending in 24 ones. -/
theorem test_decode_caddBits :
    decode 0b101100000001100000000000111111111111111111111111#48 [] = .ok (.caddBits 0xFFFFFF#32 24#8) := by decide
theorem test_decode_caddPackedCode : decode 0xC00000000503#48 [] = .ok (.caddPackedCode 0x503#32) := by decide
theorem test_decode_csize : decode 0xD00000000000#48 [] = .ok .csize := by decide

/-! ### Rejections by name: vectors E14 to E20, X2 -/

theorem test_reject_zero_word : decode 0x000000000000#48 [] = .error .reservedOpcode := by decide
theorem test_reject_opcode_E : decode 0xE00000000000#48 [] = .error .reservedOpcode := by decide
theorem test_reject_opcode_F : decode 0xFFFFFFFFFFFF#48 [] = .error .reservedOpcode := by decide
theorem test_reject_z : decode 0x910000000000#48 [] = .error .nonzeroZ := by decide
theorem test_reject_f0_operand : decode 0x900000000001#48 [] = .error .nonzeroOperand := by decide
theorem test_reject_fb_operand : decode 0x600000000100#48 [] = .error .nonzeroOperand := by decide
theorem test_reject_fa_count : decode 0x300100000000#48 [] = .error .nonzeroOperand := by decide
theorem test_reject_payload : decode 0x700000000002#48 [1#8] = .error .payloadLength := by decide

/-! ### Encoding (rule R110) -/

theorem test_encode_putBits : encode (.putBits 0b101#32 3#8) = 0x400300000005#48 := by decide
theorem test_encode_putByte : encode (.putByte 0xFF#8) = 0x6000000000FF#48 := by decide

/-! ### Single steps -/

/-- Vector S12: the first SRESET empties the sink and abandons the writer. -/
theorem test_sreset : (after .sreset (start (growable 4) [])).map (fun t => (t.sink.cap, t.w.mode)) = some (0, .failed) := by
  decide

/-- Vector S9: SRELEASE delivers the committed byte and answers its count. -/
theorem test_srelease :
    (after .srelease (finished (growable 0) 1)).map (fun t => (t.delivered, t.resp, t.sink.state)) =
      some ([{ len := 1, cells := [(0, 0xAB#8)] }], 1#64, .released) := by decide

/-- Vector X18: SRELEASE on the external backend. -/
theorem test_srelease_external : (after .srelease (finished external 0)).map (fun t => t.fault) = some 0x151#11 := by decide

/-- Vector S1: RESERVE 16 from reset grows to exactly 16 after one draw. -/
theorem test_reserve_grows :
    (after (.reserve 16#32) (start (growable 0) [true])).map (fun t => (t.sink.cap, t.w.rsv, t.resp, t.oracle.drawn)) =
      some (16, 16, 1#64, 1) := by decide

/-- Vector S5: the growth draw answers false. -/
theorem test_reserve_fails :
    (after (.reserve 4#32) (start (growable 0) [false])).map (fun t => (t.resp, t.w.mode, t.sink.state, t.fault)) =
      some (0#64, .failed, .broken, 0#11) := by decide

/-- Vector W3: the flush is before the append. -/
theorem test_putBits_flushes_first :
    (after (.putBits 0#32 1#8) (ready 16 0xBFE00000#32 11)).map (fun t => (t.w.acc, t.w.nb, t.sink.buf.cells)) =
      some (0xE0000000#32, 4, [(0, 0xBF#8)]) := by decide

/-- Vector X5: bits outside the width. -/
theorem test_putBits_width : (after (.putBits 8#32 3#8) (ready 4 0#32 0)).map (fun t => t.fault) = some 0x209#11 := by decide

/-- Vector W23: FLUSHBITS emits the complete byte and keeps three bits. -/
theorem test_flushBits :
    (after .flushBits (ready 16 0xBFE00000#32 11)).map (fun t => (t.w.acc, t.w.nb, t.sink.buf.cells)) =
      some (0xE0000000#32, 3, [(0, 0xBF#8)]) := by decide

/-- Vector B1: a raw 0xFF is not escaped. -/
theorem test_putByte_raw :
    (after (.putByte 0xFF#8) (ready 2 0#32 0)).map (fun t => (t.w.pos, t.sink.buf.cells)) = some (1, [(0, 0xFF#8)]) := by decide

/-- Vector X12: pending bits. -/
theorem test_putByte_pending : (after (.putByte 0xFF#8) (ready 4 0xAB000000#32 8)).map (fun t => t.fault) = some 0x30B#11 := by
  decide

/-- Vector B2. -/
theorem test_putBytes_raw :
    (after (.putBytes 3#32 [1#8, 0xFF#8, 2#8]) (ready 4 0#32 0)).map (fun t => (t.w.pos, t.sink.buf.cells)) =
      some (3, [(0, 1#8), (1, 0xFF#8), (2, 2#8)]) := by decide

/-- Vector X16: the third byte does not fit. -/
theorem test_putBytes_overrun :
    (after (.putBytes 3#32 [1#8, 2#8, 3#8]) (ready 2 0#32 0)).map (fun t => (t.fault, t.w.pos, t.sink.buf.cells)) =
      some (0x38D#11, 2, [(0, 1#8), (1, 2#8)]) := by decide

/-- Vector B6, second command. -/
theorem test_putPackedCode :
    (after (.putPackedCode 0xFF08#32) (ready 16 0xA0000000#32 3)).map (fun t => (t.w.acc, t.w.nb)) =
      some (0xBFE00000#32, 11) := by decide

/-- Vector B7: pattern 0x500 does not fit length 2. -/
theorem test_putPackedCode_width :
    (after (.putPackedCode 0x00050002#32) (ready 4 0#32 0)).map (fun t => t.fault) = some 0x409#11 := by decide

/-- Vector W16: 31 pending ones make four escaped bytes. -/
theorem test_flush_full :
    (after .flush (ready 16 0xFFFFFFFE#32 31)).map (fun t => (t.w.nb, t.w.pos, t.sink.buf.read 6, t.sink.buf.read 7)) =
      some (0, 8, some 0xFF#8, some 0x00#8) := by decide

/-- Vector X15: the stuffed zero does not fit. -/
theorem test_flush_overrun :
    (after .flush (ready 1 0xFF000000#32 8)).map (fun t => (t.fault, t.w.pos, t.w.nb, t.sink.buf.cells)) =
      some (0x48D#11, 1, 8, [(0, 0xFF#8)]) := by decide

/-- Vector S8: FINALIZE as the first command. -/
theorem test_finalize_empty :
    (after .finalize (start (growable 0) [true])).map (fun t => (t.resp, t.sink.state, t.w.mode)) =
      some (1#64, .finalized, .done) := by decide

/-- Vector S7: the trim fails. -/
theorem test_finalize_fails :
    (after .finalize (start (growable 0) [false])).map (fun t => (t.resp, t.sink.state, t.w.mode, t.fault)) =
      some (0#64, .broken, .done, 0#11) := by decide

/-- Vector CT7: the flushed 0xFF counts two bytes. -/
theorem test_caddBits :
    (after (.caddBits 0xFF#32 8#8) (counting 0 0xFF000000#32 8 0)).map (fun t => (t.c.acc, t.c.nb, t.c.total)) =
      some (0xFF000000#32, 8, 2) := by decide

/-- Vector X21: the count would pass 2^64 − 1. -/
theorem test_caddBits_overflow :
    (after (.caddBits 1#32 1#8) (counting 0 0xFF000000#32 8 (2 ^ 64 - 2))).map (fun t => (t.fault, t.c.nb, t.c.total)) =
      some (0x5B3#11, 8, 2 ^ 64 - 2) := by decide

/-- Vector CT15, second command. -/
theorem test_caddPackedCode :
    (after (.caddPackedCode 0xFF08#32) (counting 0 0xA0000000#32 3 0)).map (fun t => (t.c.acc, t.c.nb)) =
      some (0xBFE00000#32, 11) := by decide

/-- Vector X8. -/
theorem test_caddPackedCode_range : (after (.caddPackedCode 0xFF00#32) (ready 0 0#32 0)).map (fun t => t.fault) = some 0x627#11 := by
  decide

/-- Vector CT5: four pending bytes, each 0xFF once padded. -/
theorem test_csize_full : (after .csize (counting 0 0xFFFFFFFE#32 31 0)).map (fun t => t.resp) = some 8#64 := by decide

/-- Vector X22. -/
theorem test_csize_overflow :
    (after .csize (counting 0 0xFF000000#32 8 (2 ^ 64 - 2))).map (fun t => (t.fault, t.resp)) = some (0x6B3#11, 0#64) := by decide

/-- Vector X1: the all-zero word. -/
theorem test_step_illegal :
    step (offered (.command 0#48 []) (start (growable 0) [])) = .next { start (growable 0) [] with fault := 0x063#11 } := by
  rfl

/-- Vector RS2: STATUS of an external block at reset. -/
theorem test_status_external : statusWord (start external []) = 0x08000#32 := by decide

/-- Vector X9: STATUS with a DONE writer, a FINALIZED sink and a fault. -/
theorem test_status_fault :
    statusWord ((finished (growable 0) 1).faulted .writerNotActive .writer 0x4#4) = 0x12040#32 := by decide

/-! ### The invariant on the helpers' states -/

theorem ready_inv {n : Nat} {acc : Word} {nb : Nat} (hn : n < 2 ^ 32) (hb : nb ≤ 31) (hl : acc <<< nb = 0#32) :
    Inv (ready n acc nb) where
  writerCount := ⟨by show nb ≤ 32; omega, fun _ => hb⟩
  writerLow := hl
  cursor := Nat.zero_le _
  reservation := hn
  region := fun _ => .inr ⟨rfl, by show 0 + n ≤ n; omega⟩
  counterCount := Nat.zero_le _
  counterLow := by show (0#32 : Word) <<< 0 = 0#32; decide
  counterTotal := Nat.zero_le _
  memory := Memory.unknown_wf n
  usedFits := fun _ => Nat.zero_le _
  capacity := fun _ _ => rfl
  noCapacity := fun h => by cases h
  trimmed := fun h => by cases h
  consumed := fun h => by cases h
  committed := fun _ => Memory.known_nothing _ _
  written := fun _ => Memory.known_nothing _ _
  bounded := fun _ => ⟨rfl, rfl, fun _ => rfl⟩
  faultForm := .inl rfl
  deliveredWhole := fun m h => by cases h

theorem counting_inv {n : Nat} {acc : Word} {nb total : Nat} (hn : n < 2 ^ 32) (hb : nb ≤ 31) (hl : acc <<< nb = 0#32)
    (ht : total ≤ Config.totalMax) : Inv (counting n acc nb total) :=
  { ready_inv hn hb hl with counterCount := hb, counterLow := hl, counterTotal := ht }

/-- The invariant says something: a stray bit below the pending ones breaks it (rule R32). -/
theorem test_inv_refuses_stray_bit : ¬ Inv (ready 4 0x80000001#32 1) := fun h => absurd h.writerLow (by decide)

/-- The machine right after reset has a memory in canonical form. -/
theorem test_reset_memory_wf : State.reset.sink.buf.wf := Memory.unknown_wf _

/-! ### Witnesses: for every obligation with hypotheses, operands and a state that meet them together -/

/-! #### Encoding -/

theorem witness_DecodeInvertsEncode : (Instr.putBytes 3#32 [1#8, 0xFF#8, 2#8]).WellFormed := by decide

theorem witness_EncodeInvertsDecode :
    decode 0x700000000003#48 [1#8, 0xFF#8, 2#8] = .ok (.putBytes 3#32 [1#8, 0xFF#8, 2#8]) := by decide

/-- Each reserved opcode, vectors E14 to E16. -/
theorem witness_ReservedOpcodeFaults :
    Running (offered (.command 0#48 []) (ready 4 0#32 0)) ∧
      opField 0x000000000000#48 ∈ [0x0#4, 0xE#4, 0xF#4] ∧ opField 0xE00000000000#48 ∈ [0x0#4, 0xE#4, 0xF#4] ∧
      opField 0xFFFFFFFFFFFF#48 ∈ [0x0#4, 0xE#4, 0xF#4] := by decide

/-- Each clause, vectors E17 to E20, and the least operand format FB refuses. -/
theorem witness_MustBeZeroFieldFaults :
    Running (offered (.command 0x910000000000#48 []) (ready 4 0#32 0)) ∧
      zField 0x910000000000#48 ≠ 0#4 ∧
      (opField 0x900000000001#48 ∈ [0x1#4, 0x2#4, 0x5#4, 0x9#4, 0xA#4, 0xD#4] ∧ aField 0x900000000001#48 ≠ 0#32) ∧
      (opField 0x300100000000#48 ∈ [0x3#4, 0x7#4, 0x8#4, 0xC#4] ∧ nField 0x300100000000#48 ≠ 0#8) ∧
      (opField 0x600000000100#48 = 0x6#4 ∧ 256 ≤ (aField 0x600000000100#48).toNat) ∧
      (opField 0x600100000000#48 = 0x6#4 ∧ nField 0x600100000000#48 ≠ 0#8) := by decide

/-- Vector X2 on the port, and the same command in its meaning. -/
theorem witness_PayloadLengthFaults :
    Running (offered (.command 0x700000000002#48 [1#8]) (ready 4 0#32 0)) ∧ opField 0x700000000002#48 = 0x7#4 ∧
      [1#8].length ≠ (aField 0x700000000002#48).toNat ∧ [1#8].length ≠ (2#32 : Word).toNat := by decide

/-! #### Steps and events -/

theorem witness_StepRunsDecodedCommand :
    (offered (.command 0x400300000005#48 []) (ready 4 0#32 0)).port = .command 0x400300000005#48 [] :: [] ∧
      decode 0x400300000005#48 [] = .ok (.putBits 0b101#32 3#8) := by decide

/-- A faulted block with a construction event, and with a power-on reset, on its port. -/
theorem witness_FaultedBlockPerformsNothing :
    faultV ((offered .rstW (ready 4 0#32 0)).faulted .illegalCommand .decoder 0x0#4) = true ∧
      (∀ cfg, (Event.rstW : Event) ≠ .rstAll cfg) ∧
      faultV ((offered (.rstAll external) (ready 4 0#32 0)).faulted .overrun .writer 0x9#4) = true :=
  ⟨by decide, fun _ h => (by cases h), by decide⟩

theorem witness_PowerOnResetEvent : (offered (.rstAll external) (ready 4 0#32 0)).port = .rstAll external :: [] := rfl

theorem witness_WriterConstruction :
    (offered .rstW (ready 4 0#32 0)).port = .rstW :: [] ∧ Running (offered .rstW (ready 4 0#32 0)) ∧
      faultV ((offered .rstW (ready 4 0#32 0)).faulted .overrun .writer 0x9#4) = true := by decide

theorem witness_CounterConstruction :
    (offered .rstC (counting 4 0x80000000#32 1 2)).port = .rstC :: [] ∧ Running (offered .rstC (counting 4 0x80000000#32 1 2)) ∧
      faultV ((offered .rstC (ready 4 0#32 0)).faulted .overrun .writer 0x9#4) = true := by decide

theorem witness_IdleBlockWaits : (ready 4 0#32 0).port = [] := rfl

theorem witness_PowerOnValues : (growable 4).sinkKind = .growable ∧ external.sinkKind = .external := by decide

/-! #### The sink -/

theorem witness_SresetEmptiesSink : Running (finished external 0) := by decide

theorem witness_SreleaseDelivers :
    Running (finished (growable 0) 1) ∧ (finished (growable 0) 1).cfg.sinkKind = .growable ∧
      (finished (growable 0) 1).sink.state = .finalized ∧ (finished (growable 0) 1).sink.used < 2 ^ 64 := by decide

/-- Both grounds, vectors X18 and X17. -/
theorem witness_SreleaseInvalidFaults :
    (Running (finished external 0) ∧ (finished external 0).cfg.sinkKind = .external) ∧
      (Running (start (growable 0) []) ∧ (start (growable 0) []).sink.state ≠ .finalized) := by decide

/-- The largest size that fits. -/
theorem witness_ReserveWithinCapacity :
    WriterReady (ready 4 0#32 0) ∧ (ready 4 0#32 0).sink.state = .opened ∧ (ready 4 0#32 0).cfg.sinkKind = .growable ∧
      (ready 4 0#32 0).sink.used + (ready 4 0#32 0).w.pos + (4#32 : Word).toNat ≤ (ready 4 0#32 0).sink.cap := by decide

/-- The smallest size that does not fit, with each answer of the oracle. -/
theorem witness_ReserveGrowsBuffer :
    (∀ a : Bool, WriterReady (start (growable 4) [a]) ∧ (start (growable 4) [a]).sink.state = .opened ∧
      (start (growable 4) [a]).cfg.sinkKind = .growable ∧ oracleAnswer (start (growable 4) [a]).oracle = a) ∧
      (start (growable 4) []).sink.cap <
        (start (growable 4) []).sink.used + (start (growable 4) []).w.pos + (5#32 : Word).toNat ∧
      (start (growable 4) []).cfg.fits (max (2 * (start (growable 4) []).sink.cap)
        ((start (growable 4) []).sink.used + (start (growable 4) []).w.pos + (5#32 : Word).toNat)) = true := by decide

theorem witness_ReserveResizesContainer :
    (∀ a : Bool, WriterReady (start external [a]) ∧ (start external [a]).sink.state = .opened ∧
      (start external [a]).cfg.sinkKind = .external ∧ oracleAnswer (start external [a]).oracle = a) ∧
      (start external []).cfg.fits
        ((start external []).sink.used + (start external []).w.pos + (0#32 : Word).toNat) = true := by decide

/-- Vector S6 on the growable backend, and its neighbour on the external one. -/
theorem witness_ReserveAboveMaxBufFails :
    (WriterReady (start { growable 0 with maxBuf := some 8 } []) ∧
      (start { growable 0 with maxBuf := some 8 } []).sink.state = .opened ∧
      (start { growable 0 with maxBuf := some 8 } []).sink.cap < 0 + 0 + (9#32 : Word).toNat ∧
      (start { growable 0 with maxBuf := some 8 } []).cfg.fits (max (2 * 0) (0 + 0 + (9#32 : Word).toNat)) = false) ∧
    (WriterReady (start { external with maxBuf := some 8 } []) ∧
      (start { external with maxBuf := some 8 } []).sink.state = .opened ∧
      (start { external with maxBuf := some 8 } []).cfg.fits (0 + 0 + (9#32 : Word).toNat) = false) := by decide

theorem witness_ClosedSinkFaults :
    ∀ st ∈ [SinkState.finalized, .released, .broken], WriterReady (underSink st) ∧ (underSink st).sink.state ≠ .opened := by decide

/-- A RESERVE that succeeds and a FINALIZE that succeeds. -/
theorem witness_CommitKeepsCommittedBytes :
    Inv (ready 4 0#32 0) ∧ WriterReady (ready 4 0#32 0) ∧ (ready 4 0#32 0).sink.state = .opened ∧
      (∃ t, exec (.reserve 4#32) (ready 4 0#32 0) = .next t ∧ t.w.mode = .active) ∧
      ∃ t, exec .finalize (ready 4 0#32 0) = .next t ∧ t.sink.state = .finalized :=
  ⟨ready_inv (by decide) (by decide) (by decide), by decide, by decide, ⟨_, rfl, by decide⟩, ⟨_, rfl, by decide⟩⟩

theorem witness_FinalizeTrimsGrowable :
    Inv (ready 4 0x80000000#32 1) ∧ WriterReady (ready 4 0x80000000#32 1) ∧ (ready 4 0x80000000#32 1).sink.state = .opened ∧
      (ready 4 0x80000000#32 1).cfg.sinkKind = .growable ∧ oracleAnswer (ready 4 0x80000000#32 1).oracle = true :=
  ⟨ready_inv (by decide) (by decide) (by decide), by decide, by decide, by decide, by decide⟩

/-- The three cases of the oracle's answers. -/
theorem witness_FinalizeTruncatesContainer :
    ∀ as ∈ [[true, true], [true, false], [false, true]],
      WriterReady (start external as) ∧ (start external as).sink.state = .opened ∧
        (start external as).cfg.sinkKind = .external ∧
        (start external as).cfg.fits ((start external as).sink.used + (start external as).w.pos) = true ∧
        oracleAnswer (start external as).oracle = as.head! ∧
        oracleAnswer (oracleNext (start external as).oracle) = as.tail.head! := by decide

theorem witness_FinalizeIsTerminal :
    WriterReady (ready 4 0x80000000#32 1) ∧ (ready 4 0x80000000#32 1).sink.state = .opened ∧
      writerCommand (.putBits 1#32 1#8) = true ∧ (Instr.putBits 1#32 1#8).WellFormed := by decide

/-! #### The writer -/

/-- A DONE writer, vector X9, and a writer command with a payload. -/
theorem witness_InactiveWriterFaults :
    Running (finished (growable 0) 1) ∧ (finished (growable 0) 1).w.mode ≠ .active ∧
      writerCommand (.putBytes 1#32 [7#8]) = true ∧ (Instr.putBytes 1#32 [7#8]).WellFormed := by decide

/-- The bit counts next to the range, and the least value outside a width, for both units: vectors X3 to X8. -/
theorem witness_CodeContractFaults :
    WriterReady (ready 4 0#32 0) ∧
      codeOperands (.putBits 0#32 0#8) = some (.writer, 0#32, 0) ∧
      codeOperands (.putBits 0#32 25#8) = some (.writer, 0#32, 25) ∧
      codeOperands (.putPackedCode 0xFF00#32) = some (.writer, 0xFF#32, 0) ∧
      codeOperands (.caddPackedCode 0xFF00#32) = some (.counter, 0xFF#32, 0) ∧
      codeOperands (.caddBits 8#32 3#8) = some (.counter, 8#32, 3) ∧ 2 ^ 3 ≤ (8#32 : Word).toNat ∧
      codeOperands (.putBits 0x1000000#32 24#8) = some (.writer, 0x1000000#32, 24) ∧
      2 ^ 24 ≤ (0x1000000#32 : Word).toNat := by decide

/-- Vector W5, second command: the largest code, and exactly the room its flush needs. -/
theorem witness_PutCodeFlushesThenAppends :
    codeOperands (.putBits 0xFFFFFF#32 24#8) = some (.writer, 0xFFFFFF#32, 24) ∧
      codeOperands (.putPackedCode 0xFFFFFF18#32) = some (.writer, 0xFFFFFF#32, 24) ∧ CodeOk 0xFFFFFF#32 24 ∧
      WriterReady (ready 6 0xFFFFFF00#32 24) ∧
      RoomFor (ready 6 0xFFFFFF00#32 24) (flushOutput (0xFFFFFF00#32) (24 / 8)).length := by decide

theorem witness_PackedCodeIsSplitCode :
    (0xFF#32 : Word).toNat = (0xFF08#32 : Word).toNat / 256 ∧ (8#8 : BitVec 8).toNat = (0xFF08#32 : Word).toNat % 256 := by decide

theorem witness_FlushBitsEmitsCompleteBytes :
    WriterReady (ready 1 0xBFE00000#32 11) ∧ RoomFor (ready 1 0xBFE00000#32 11) (flushOutput 0xBFE00000#32 (11 / 8)).length := by
  decide

/-- Vector W16: the pad fills the accumulator, and the room is exactly the FLUSH maximum. -/
theorem witness_FlushPadsAndEmpties :
    Inv (ready 8 0xFFFFFFFE#32 31) ∧ WriterReady (ready 8 0xFFFFFFFE#32 31) ∧ 1 = (8 - 31 % 8) % 8 ∧
      RoomFor (ready 8 0xFFFFFFFE#32 31)
        (flushOutput (0xFFFFFFFE#32 ||| (BitVec.ofNat 32 (2 ^ 1 - 1) <<< (32 - 31 - 1))) ((31 + 1) / 8)).length :=
  ⟨ready_inv (by decide) (by decide) (by decide), by decide, by decide, by decide⟩

/-- A flush with an escape, by FLUSH and by FLUSHBITS. -/
theorem witness_FlushedByteCounts :
    flushingCommand .flush = true ∧ flushingCommand .flushBits = true ∧ WriterReady (ready 2 0xFF000000#32 8) ∧
      (∃ t, exec .flush (ready 2 0xFF000000#32 8) = .next t ∧ Running t) ∧
      ∃ t, exec .flushBits (ready 2 0xFF000000#32 8) = .next t ∧ Running t :=
  ⟨rfl, rfl, by decide, ⟨_, rfl, by decide⟩, ⟨_, rfl, by decide⟩⟩

theorem witness_EveryFlushedMarkerIsStuffed :
    flushingCommand .flush = true ∧ WriterReady (ready 2 0xFF000000#32 8) ∧
      ∃ t, exec .flush (ready 2 0xFF000000#32 8) = .next t ∧ Running t ∧ 0 < (ready 2 0xFF000000#32 8).sink.used + t.w.pos ∧
        t.sink.buf.read 0 = some 0xFF#8 :=
  ⟨rfl, by decide, _, rfl, by decide, by decide, by decide⟩

theorem witness_PutByteStoresRaw :
    WriterReady (ready 1 0#32 0) ∧ WriterIdle (ready 1 0#32 0) ∧ RoomFor (ready 1 0#32 0) 1 := by decide

/-- Exactly the room a payload needs, and a payload of no bytes. -/
theorem witness_PutBytesStoresRaw :
    [1#8, 0xFF#8, 2#8].length = (3#32 : Word).toNat ∧ ([] : List Byte).length = (0#32 : Word).toNat ∧
      WriterReady (ready 3 0#32 0) ∧ WriterIdle (ready 3 0#32 0) ∧ RoomFor (ready 3 0#32 0) 3 := by decide

theorem witness_PendingBitsFault :
    WriterReady (ready 4 0x80000000#32 1) ∧ (ready 4 0x80000000#32 1).w.nb ≠ 0 ∧
      ([] : List Byte).length = (0#32 : Word).toNat := by decide

/-- Vectors S10 and X16. -/
theorem witness_RawOverrunKeepsEarlierBytes :
    (Inv (ready 0 0#32 0) ∧ WriterReady (ready 0 0#32 0) ∧ WriterIdle (ready 0 0#32 0) ∧
      (ready 0 0#32 0).w.pos = (ready 0 0#32 0).w.rsv) ∧
    (Inv (ready 2 0#32 0) ∧ WriterReady (ready 2 0#32 0) ∧ WriterIdle (ready 2 0#32 0) ∧
      [1#8, 2#8, 3#8].length = (3#32 : Word).toNat ∧ (ready 2 0#32 0).w.rsv < (ready 2 0#32 0).w.pos + 3) :=
  ⟨⟨ready_inv (by decide) (by decide) (by decide), by decide, by decide, by decide⟩,
    ⟨ready_inv (by decide) (by decide) (by decide), by decide, by decide, by decide, by decide⟩⟩

/-- The stuffed zero is the byte that does not fit, for FLUSHBITS and for a code. -/
theorem witness_FlushOverrunKeepsEarlierBytes :
    Inv (ready 1 0xFF000000#32 8) ∧ WriterReady (ready 1 0xFF000000#32 8) ∧
      codeOperands (.putBits 1#32 1#8) = some (.writer, 1#32, 1) ∧ CodeOk 1#32 1 ∧
      (ready 1 0xFF000000#32 8).w.rsv < (ready 1 0xFF000000#32 8).w.pos + (flushOutput 0xFF000000#32 (8 / 8)).length :=
  ⟨ready_inv (by decide) (by decide) (by decide), by decide, by decide, by decide, by decide⟩

/-- 31 pending ones, no reservation: nothing fits. -/
theorem witness_PaddedOverrunKeepsEarlierBytes :
    Inv (ready 0 0xFFFFFFFE#32 31) ∧ WriterReady (ready 0 0xFFFFFFFE#32 31) ∧ 1 = (8 - 31 % 8) % 8 ∧
      0xFFFFFFFF#32 = 0xFFFFFFFE#32 ||| (BitVec.ofNat 32 (2 ^ 1 - 1) <<< (32 - 31 - 1)) ∧
      (ready 0 0xFFFFFFFE#32 31).w.rsv <
        (ready 0 0xFFFFFFFE#32 31).w.pos + (flushOutput 0xFFFFFFFF#32 ((31 + 1) / 8)).length :=
  ⟨ready_inv (by decide) (by decide) (by decide), by decide, by decide, by decide, by decide⟩

/-- A flushing command, a raw one, and one that faults. -/
theorem witness_EmittingCommandFrame :
    (emittingCommand .flush = true ∧ ∃ t, exec .flush (ready 2 0xFF000000#32 8) = .next t ∧ Running t) ∧
      (emittingCommand (.putByte 7#8) = true ∧ flushingCommand (.putByte 7#8) = false ∧
        ∃ t, exec (.putByte 7#8) (ready 1 0#32 0) = .next t ∧ Running t) ∧
      ∃ t, exec .flush (ready 0 0xFF000000#32 8) = .next t ∧ ¬ Running t :=
  ⟨⟨rfl, _, rfl, by decide⟩, ⟨rfl, rfl, _, rfl, by decide⟩, ⟨_, rfl, by decide⟩⟩

theorem witness_CommittingCommandFrame :
    (∃ t, exec .finalize (ready 4 0x80000000#32 1) = .next t ∧ Running t) ∧
      ∃ t, exec (.reserve 4#32) (ready 4 0x80000000#32 1) = .next t ∧ Running t :=
  ⟨⟨_, rfl, by decide⟩, ⟨_, rfl, by decide⟩⟩

/-! #### The counter -/

/-- The largest total the flush leaves, for both commands. -/
theorem witness_AddCodeCountsThenAppends :
    codeOperands (.caddBits 1#32 1#8) = some (.counter, 1#32, 1) ∧
      codeOperands (.caddPackedCode 0x101#32) = some (.counter, 1#32, 1) ∧ CodeOk 1#32 1 ∧
      Running (counting 0 0xFF000000#32 8 (2 ^ 64 - 3)) ∧ 2 ^ 64 - 3 + (flushOutput 0xFF000000#32 (8 / 8)).length < 2 ^ 64 := by
  decide

/-- Vector X21. -/
theorem witness_CounterOverflowKeepsEarlierTurns :
    codeOperands (.caddBits 1#32 1#8) = some (.counter, 1#32, 1) ∧ CodeOk 1#32 1 ∧
      Running (counting 0 0xFF000000#32 8 (2 ^ 64 - 2)) ∧ (2 ^ 64 - 2 : Nat) < 2 ^ 64 ∧
      2 ^ 64 ≤ 2 ^ 64 - 2 + (flushOutput 0xFF000000#32 (8 / 8)).length := by decide

/-- The largest size CSIZE answers, and the least it cannot. -/
theorem witness_CsizePredictsFlush :
    (∀ total ∈ [2 ^ 64 - 3, 2 ^ 64 - 2], Inv (counting 0 0xFF000000#32 8 total) ∧ Running (counting 0 0xFF000000#32 8 total)) ∧
      0 = (8 - 8 % 8) % 8 ∧ 2 ^ 64 - 3 + (flushOutput 0xFF000000#32 ((8 + 0) / 8)).length < 2 ^ 64 ∧
      2 ^ 64 ≤ 2 ^ 64 - 2 + (flushOutput 0xFF000000#32 ((8 + 0) / 8)).length :=
  ⟨fun total h => ⟨counting_inv (by decide) (by decide) (by decide) (by
      unfold Config.totalMax; simp only [List.mem_cons, List.not_mem_nil, or_false] at h; omega),
    by show (0#11 : BitVec 11).getLsbD 0 = false; decide⟩,
    by decide, by decide, by decide⟩

theorem witness_CsizeEqualsFlushedBytes :
    Inv (counting 8 0xFFFFFFFE#32 31 0) ∧ WriterReady (counting 8 0xFFFFFFFE#32 31 0) ∧
      (counting 8 0xFFFFFFFE#32 31 0).c.acc = (counting 8 0xFFFFFFFE#32 31 0).w.acc ∧
      (counting 8 0xFFFFFFFE#32 31 0).c.nb = (counting 8 0xFFFFFFFE#32 31 0).w.nb ∧
      RoomFor (counting 8 0xFFFFFFFE#32 31 0) (2 * ((31 + 7) / 8)) ∧ (counting 8 0xFFFFFFFE#32 31 0).c.total + 8 < 2 ^ 64 :=
  ⟨counting_inv (by decide) (by decide) (by decide) (by decide), by decide, by decide, by decide, by decide, by decide⟩

theorem witness_CounterIsIndependent :
    (counterCommand .csize = true ∧ ∃ t, exec .csize (ready 4 0#32 0) = .next t) ∧
      counterCommand .flush = false ∧ ∃ t, exec .flush (ready 4 0x80000000#32 1) = .next t :=
  ⟨⟨rfl, _, rfl⟩, rfl, _, rfl⟩

theorem witness_CounterReadsNoWriterOrSink :
    counterCommand (.caddBits 1#32 1#8) = true ∧ ∃ t, exec (.caddBits 1#32 1#8) (ready 4 0#32 0) = .next t := ⟨rfl, _, rfl⟩

/-- Vector CT3: eleven bits, with exactly the reservation the rule asks for. -/
theorem witness_CounterPredictsStreamLength :
    Inv (ready 4 0#32 0) ∧ WriterReady (ready 4 0#32 0) ∧
      (∀ x ∈ [((0b101#32 : Word), (3#8 : BitVec 8)), (0xFF#32, 8#8)], CodeOk x.1 x.2.toNat) ∧
      (ready 4 0#32 0).c = { acc := 0#32, nb := 0, total := 0 } ∧ (ready 4 0#32 0).w.acc = 0#32 ∧ (ready 4 0#32 0).w.nb = 0 ∧
      (ready 4 0#32 0).w.pos = 0 ∧ (ready 4 0#32 0).sink.state = .opened ∧ (ready 4 0#32 0).sink.used = 0 ∧
      2 * ((([((0b101#32 : Word), (3#8 : BitVec 8)), (0xFF#32, 8#8)].map fun x => x.2.toNat).sum + 7) / 8) ≤
        (ready 4 0#32 0).w.rsv :=
  ⟨ready_inv (by decide) (by decide) (by decide), by decide, fun x h => by
      simp only [List.mem_cons, List.not_mem_nil, or_false] at h
      rcases h with rfl | rfl <;> decide,
    rfl, rfl, rfl, rfl, rfl, rfl, by decide⟩

/-! #### The whole machine -/

/-- Placing an event touches no field the invariant reads. -/
theorem offered_inv {s : State} (e : Event) (h : Inv s) : Inv (offered e s) := by
  obtain ⟨a1, a2, a3, a4, a5, a6, a7, a8, a9, a10, a11, a12, a13, a14, a15, a16, a17, a18, a19⟩ := h
  exact ⟨a1, a2, a3, a4, a5, a6, a7, a8, a9, a10, a11, a12, a13, a14, a15, a16, a17, a18, a19⟩

/-- A step that performs a FLUSH with 31 pending ones. -/
theorem witness_StepKeepsInvariant :
    Inv (offered (.command 0x900000000000#48 []) (ready 8 0xFFFFFFFE#32 31)) ∧
      ∃ t, step (offered (.command 0x900000000000#48 []) (ready 8 0xFFFFFFFE#32 31)) = .next t :=
  ⟨offered_inv _ (ready_inv (by decide) (by decide) (by decide)), _, rfl⟩

theorem witness_InvariantNeverStops : Inv (ready 8 0xFFFFFFFE#32 31) := ready_inv (by decide) (by decide) (by decide)

theorem witness_ConfigurationIsConstant :
    (∀ cfg rest, (offered (.command 0x900000000000#48 []) (ready 8 0x80000000#32 1)).port ≠ .rstAll cfg :: rest) ∧
      ∃ t, step (offered (.command 0x900000000000#48 []) (ready 8 0x80000000#32 1)) = .next t :=
  ⟨fun _ _ h => (by cases h), _, rfl⟩

/-- A sink still OPEN after a RESERVE, and one FINALIZED by FINALIZE. -/
theorem witness_CommittedBytesAreKept :
    Inv (ready 4 0#32 0) ∧
      (∃ t, exec (.reserve 4#32) (ready 4 0#32 0) = .next t ∧ t.sink.state = .opened) ∧
      ∃ t, exec .finalize (ready 4 0#32 0) = .next t ∧ t.sink.state = .finalized :=
  ⟨ready_inv (by decide) (by decide) (by decide), ⟨_, rfl, by decide⟩, ⟨_, rfl, by decide⟩⟩

/-- A RESERVE that fits, one that grows, and a FINALIZE, on the growable backend. -/
theorem witness_OracleDrawnExactly :
    Inv (ready 4 0#32 0) ∧ WriterReady (ready 4 0#32 0) ∧ (ready 4 0#32 0).sink.state = .opened ∧
      (∃ t, exec .flush (ready 4 0#32 0) = .next t) ∧
      (∃ t, exec (.reserve 4#32) (ready 4 0#32 0) = .next t ∧ 0 + 0 + (4#32 : Word).toNat ≤ (ready 4 0#32 0).sink.cap) ∧
      (∃ t, exec (.reserve 5#32) (ready 4 0#32 0) = .next t ∧ (ready 4 0#32 0).sink.cap < 0 + 0 + (5#32 : Word).toNat ∧
        t.w.mode = .active) ∧
      ∃ t, exec .finalize (ready 4 0#32 0) = .next t ∧ t.sink.state = .finalized :=
  ⟨ready_inv (by decide) (by decide) (by decide), by decide, by decide, ⟨_, rfl⟩, ⟨_, rfl, by decide⟩,
    ⟨_, rfl, by decide, by decide⟩, ⟨_, rfl, by decide⟩⟩

theorem external_inv (as : List Bool) : Inv (start external as) where
  writerCount := ⟨Nat.zero_le _, fun _ => Nat.zero_le _⟩
  writerLow := by show (0#32 : Word) <<< 0 = 0#32; decide
  cursor := Nat.zero_le _
  reservation := by show 0 < 2 ^ 32; decide
  region := fun _ => .inl rfl
  counterCount := Nat.zero_le _
  counterLow := by show (0#32 : Word) <<< 0 = 0#32; decide
  counterTotal := Nat.zero_le _
  memory := Memory.unknown_wf _
  usedFits := fun _ => Nat.zero_le _
  capacity := fun h => by cases h
  noCapacity := fun _ => rfl
  trimmed := fun h => by cases h
  consumed := fun h => by cases h
  committed := fun _ => Memory.known_nothing _ _
  written := fun _ => Memory.known_nothing _ _
  bounded := fun _ => ⟨rfl, rfl, fun _ => rfl⟩
  faultForm := .inl rfl
  deliveredWhole := fun m h => by cases h

/-- A RESERVE and a FINALIZE on the external backend. -/
theorem witness_OracleDrawnExactly_external :
    Inv (start external [true, true]) ∧ WriterReady (start external [true, true]) ∧
      (∃ t, exec (.reserve 5#32) (start external [true, true]) = .next t ∧ t.w.mode = .active) ∧
      ∃ t, exec .finalize (start external [true, true]) = .next t ∧ t.sink.state = .finalized :=
  ⟨external_inv _, by decide, ⟨_, rfl, by decide⟩, ⟨_, rfl, by decide⟩⟩

theorem witness_ResponseWriters : ∃ t, exec .flush (ready 4 0#32 0) = .next t := ⟨_, rfl⟩

/-- A DONE writer and a BROKEN sink under a command that is performed. -/
theorem witness_TerminalStatesStay :
    (∃ t, exec .sreset (finished (growable 0) 1) = .next t) ∧ (finished (growable 0) 1).w.mode ≠ .active ∧
      (∃ t, exec .finalize (underSink .broken) = .next t) ∧ (underSink .broken).sink.state = .broken :=
  ⟨⟨_, rfl⟩, by decide, ⟨_, rfl⟩, rfl⟩

theorem witness_StatusAndFaultFields :
    (counting 8 0xFFFFFFFE#32 31 0).w.nb < 32 ∧ (counting 8 0xFFFFFFFE#32 31 0).c.nb < 32 := by decide

/-- An OPEN sink on each backend. -/
theorem witness_SinkViewShowsStream :
    (Inv (ready 4 0#32 0) ∧ (ready 4 0#32 0).sink.state = .opened ∧ (ready 4 0#32 0).cfg.sinkKind = .growable) ∧
      (Inv (start external []) ∧ (start external []).sink.state = .opened ∧ (start external []).cfg.sinkKind = .external) :=
  ⟨⟨ready_inv (by decide) (by decide) (by decide), rfl, rfl⟩, ⟨external_inv _, rfl, rfl⟩⟩

theorem finished_inv {cfg : Config} {cap : Nat} (hm : cfg.maxBuf = none)
    (hk : cfg.sinkKind = .growable ∧ cap = 1 ∨ cfg.sinkKind = .external ∧ cap = 0) : Inv (finished cfg cap) where
  writerCount := ⟨Nat.zero_le _, fun _ => Nat.zero_le _⟩
  writerLow := by show (0#32 : Word) <<< 0 = 0#32; decide
  cursor := Nat.zero_le _
  reservation := by show 0 < 2 ^ 32; decide
  region := fun h => by cases h
  counterCount := Nat.zero_le _
  counterLow := by show (0#32 : Word) <<< 0 = 0#32; decide
  counterTotal := Nat.zero_le _
  memory := (by decide : Memory.wf { len := 1, cells := [(0, 0xAB#8)] })
  usedFits := fun _ => le_rfl
  capacity := fun h _ => by
    have h : cfg.sinkKind = .growable := h
    rw [h] at hk
    exact (hk.resolve_right fun e => nomatch e.1).2.symm
  noCapacity := fun h => by
    have h : cfg.sinkKind = .external := h
    rw [h] at hk
    exact (hk.resolve_left fun e => nomatch e.1).2
  trimmed := fun _ => rfl
  consumed := fun h => by cases h
  committed := fun _ a _ h2 => by
    have h2 : a < 1 := h2
    obtain rfl : a = 0 := by omega
    rfl
  written := fun h => by cases h
  bounded := fun _ => by
    have all : ∀ n, cfg.fits n = true := fun n => by simp [Config.fits, hm]
    exact ⟨all _, all _, fun _ => all _⟩
  faultForm := .inl rfl
  deliveredWhole := fun m h => by cases h

/-- A FINALIZED sink with a committed byte, on each backend. -/
theorem witness_SinkViewShowsStream_finalized :
    (Inv (finished (growable 0) 1) ∧ (finished (growable 0) 1).sink.state = .finalized) ∧
      (Inv (finished external 0) ∧ (finished external 0).sink.state = .finalized) :=
  ⟨⟨finished_inv rfl (.inl ⟨rfl, rfl⟩), rfl⟩, ⟨finished_inv rfl (.inr ⟨rfl, rfl⟩), rfl⟩⟩

/-- A committed byte under a counter command. -/
theorem witness_CommittedBytesAreKept_committed :
    Inv (finished (growable 0) 1) ∧ (finished (growable 0) 1).sink.used = 1 ∧
      ∃ t, exec (.caddBits 1#32 1#8) (finished (growable 0) 1) = .next t ∧ t.sink.state = .finalized :=
  ⟨finished_inv rfl (.inl ⟨rfl, rfl⟩), rfl, _, rfl, rfl⟩

theorem underSink_inv (st : SinkState) : Inv (underSink st) where
  writerCount := ⟨Nat.zero_le _, fun _ => Nat.zero_le _⟩
  writerLow := by show (0#32 : Word) <<< 0 = 0#32; decide
  cursor := Nat.zero_le _
  reservation := by show 0 < 2 ^ 32; decide
  region := fun _ => .inl rfl
  counterCount := Nat.zero_le _
  counterLow := by show (0#32 : Word) <<< 0 = 0#32; decide
  counterTotal := Nat.zero_le _
  memory := Memory.empty_wf
  usedFits := fun _ => Nat.zero_le _
  capacity := fun _ _ => rfl
  noCapacity := fun _ => rfl
  trimmed := fun _ => rfl
  consumed := fun _ => ⟨rfl, rfl, rfl⟩
  committed := fun _ => Memory.known_nothing _ _
  written := fun _ => Memory.known_nothing _ _
  bounded := fun _ => ⟨rfl, rfl, fun _ => rfl⟩
  faultForm := .inl rfl
  deliveredWhole := fun m h => by cases h

theorem overBroken_inv : Inv overBroken where
  writerCount := ⟨Nat.zero_le _, fun _ => Nat.zero_le _⟩
  writerLow := by show (0#32 : Word) <<< 0 = 0#32; decide
  cursor := Nat.zero_le _
  reservation := by show 0 < 2 ^ 32; decide
  region := fun _ => .inl rfl
  counterCount := Nat.zero_le _
  counterLow := by show (0#32 : Word) <<< 0 = 0#32; decide
  counterTotal := Nat.zero_le _
  memory := Memory.empty_wf
  usedFits := fun h => absurd rfl h
  capacity := fun _ h => absurd rfl h
  noCapacity := fun _ => rfl
  trimmed := fun h => by cases h
  consumed := fun h => by cases h
  committed := fun h => absurd rfl h
  written := fun _ => Memory.known_nothing _ _
  bounded := fun _ => ⟨rfl, rfl, fun _ => rfl⟩
  faultForm := .inl rfl
  deliveredWhole := fun m h => by cases h

/-- Where no byte is stored the hypotheses of the writer's statements ask nothing of S.BUF (FLUSH in Idle, FLUSHBITS, a code,
PUTBYTES of no bytes), and the commands are performed. -/
theorem witness_NoByteAsksNoRoom :
    Inv overBroken ∧ WriterReady overBroken ∧ WriterIdle overBroken ∧ overBroken.sink.buf.len < overBroken.sink.used ∧
      RoomFor overBroken (flushOutput overBroken.w.acc (overBroken.w.nb / 8)).length ∧
      RoomFor overBroken (flushOutput (overBroken.w.acc ||| (BitVec.ofNat 32 (2 ^ 0 - 1) <<< (32 - 0 - 0))) ((0 + 0) / 8)).length ∧
      RoomFor overBroken ([] : List Byte).length ∧
      exec .flush overBroken = .next overBroken ∧ exec .flushBits overBroken = .next overBroken ∧
      exec (.putBytes 0#32 []) overBroken = .next overBroken ∧
      (after (.putBits 1#32 1#8) overBroken).map (fun t => (t.w.acc, t.w.nb, t.w.pos)) = some (0x80000000#32, 1, 0) ∧
      (after (.putPackedCode 0x101#32) overBroken).map (fun t => (t.w.acc, t.w.nb, t.w.pos)) = some (0x80000000#32, 1, 0) :=
  ⟨overBroken_inv, by decide, by decide, by decide, by decide, by decide, by decide, rfl, rfl, rfl, by decide, by decide⟩

/-- A RELEASED and a BROKEN sink. -/
theorem witness_SinkViewShowsStream_consumed :
    (Inv (underSink .released) ∧ (underSink .released).sink.state = .released) ∧
      (Inv (underSink .broken) ∧ (underSink .broken).sink.state = .broken) :=
  ⟨⟨underSink_inv _, rfl⟩, ⟨underSink_inv _, rfl⟩⟩

end Sys2Proof.Tests
end

/-! PROOFS. The family of 00_scope.md: what a step performs (O8), what every command leaves alone (O53, O54), that no run
stops (O52), packed codes against split codes (O30), the padded flush (O32), its escapes (O34), and the size limit (O21). -/

namespace Sys2Proof.Machine

/-! ### Steps and events -/

theorem step_idle {s : State} (h : s.port = []) : step s = .next s := by rw [step, portStep, h]

theorem step_event {s : State} {e : Event} {rest : List Event} (h : s.port = e :: rest) :
    step s = runEvent e (s.withPort rest) := by rw [step, portStep, h]

/-- A word that decodes is performed; on a faulted block both sides keep the state (rule R213). -/
theorem runCommand_decoded {w : CmdWord} {p : List Byte} {i : Instr} (h : decode w p = .ok i) (s : State) :
    runCommand w p s = exec i s := by
  rw [runCommand, h]
  split
  · rename_i hf
    exact (exec_faulted hf i).symm
  · rfl

/-- A word that does not decode leaves at most a latched fault (rules R105, R106, R109). -/
theorem runCommand_rejected {w : CmdWord} {p : List Byte} {r : Reject} (h : decode w p = .error r) (s : State) :
    runCommand w p s = .next (latchFault .illegalCommand .decoder (opField w) s) := by
  rw [runCommand, h, latchFault]
  split <;> rfl

/-- Settles O8: taking the event off the port exposes `runCommand`, which performs what the word decodes to. -/
theorem stepRunsDecodedCommand : Obligations.StepRunsDecodedCommand := by
  intro s w p rest i hport hdec
  rw [step_event hport]
  exact runCommand_decoded hdec _

/-! ### Everything a command can leave, family by family -/

/-- What a command runs on a block that is not faulted (rule R213); `exec_eq_commandBody` ties it to the dispatch. -/
def commandBody (i : Instr) (s : State) : Run :=
  match i with
  | .sreset => .go (abandonWriter (sinkReset s))
  | .srelease => .go (releaseResult s)
  | .reserve size => (writerGuard 0x3#4 s).andThen fun s =>
      .go (reserveResult size (sinkCommit 0x3#4 s.w.pos size.toNat s))
  | .putBits bits nbits => putCode 0x4#4 bits nbits.toNat s
  | .flushBits => (writerGuard 0x5#4 s).andThen (flushBytes 0x5#4)
  | .putByte value => ((writerGuard 0x6#4 s).andThen (requireNoPending 0x6#4)).andThen (emitByte 0x6#4 value)
  | .putBytes size payload => (((requirePayload 0x7#4 size payload s).andThen (writerGuard 0x7#4)).andThen
      (requireNoPending 0x7#4)).andThen (emitRaw 0x7#4 payload)
  | .putPackedCode code => putCode 0x8#4 (packedPattern code) (packedLength code).toNat s
  | .flush => (writerGuard 0x9#4 s).andThen fun s => flushBytes 0x9#4 (padBits s)
  | .finalize => (writerGuard 0xA#4 s).andThen fun s => .go (finalizeAfterCommit 0xA#4 (sinkCommit 0xA#4 s.w.pos 0 s))
  | .caddBits bits nbits => addCode 0xB#4 bits nbits.toNat s
  | .caddPackedCode code => addCode 0xC#4 (packedPattern code) (packedLength code).toNat s
  | .csize =>
      if Config.totalMax < predictedSize s then raise .counterOverflow .counter 0xD#4 s
      else .go { s with resp := BitVec.ofNat 64 (predictedSize s) }

theorem exec_eq_commandBody (i : Instr) (s : State) : exec i s = whenRunning s (commandBody i) := by cases i <;> rfl

/-- A faulted block keeps its state; a running one is left as the body leaves it. -/
theorem exec_next_cases {i : Instr} {s t : State} (h : exec i s = .next t) :
    faultV s = true ∧ t = s ∨ Running s ∧ (commandBody i s).outcome = .next t := by
  rw [exec_eq_commandBody] at h
  cases hf : faultV s with
  | true =>
    rw [whenRunning_faulted hf] at h
    cases h
    exact .inl ⟨rfl, rfl⟩
  | false => exact .inr ⟨hf, (whenRunning_running hf _).symm.trans h⟩

theorem exec_leaves {i : Instr} {s t : State} {P : State → Prop} (hs : P s) (hb : (commandBody i s).Leaves P)
    (h : exec i s = .next t) : P t := by
  rcases exec_next_cases h with ⟨_, rfl⟩ | ⟨_, ht⟩
  · exact hs
  · exact hb.next ht

theorem exec_answers_of_body {i : Instr} {s : State} (h : (commandBody i s).Answers) : ∃ t, exec i s = .next t := by
  rw [exec_eq_commandBody]
  exact whenRunning_answers h

/-- `r` is a check in state `s`: it goes on with `s` as it was, or raises a cause for one of the cause's units. -/
def Checks (op : Opcode) (s : State) (r : Run) : Prop :=
  r = .go s ∨ ∃ c u, causeUnit c u = true ∧ r = raise c u op s

theorem writerGuard_checks (op : Opcode) (s : State) : Checks op s (writerGuard op s) :=
  (writerGuard_cases op s).imp And.right fun h => ⟨_, _, rfl, h.2⟩

theorem requireNoPending_checks (op : Opcode) (s : State) : Checks op s (requireNoPending op s) :=
  (requireNoPending_cases op s).imp And.right fun h => ⟨_, _, rfl, h.2⟩

theorem requirePayload_checks (op : Opcode) (size : Word) (p : List Byte) (s : State) :
    Checks op s (requirePayload op size p s) :=
  (requirePayload_cases op size p s).imp And.right fun h => ⟨_, _, rfl, h.2⟩

theorem Checks.outcome {op : Opcode} {s : State} {r : Run} (h : Checks op s r) {k : State → Run}
    (hk : (k s).Leaves (WriterOutcome op s)) : (r.andThen k).Leaves (WriterOutcome op s) := by
  rcases h with rfl | ⟨c, u, hc, rfl⟩
  · exact hk
  · exact .raised op s hc

theorem Checks.answers {op : Opcode} {s : State} {r : Run} (h : Checks op s r) {k : State → Run}
    (hk : (k s).Answers) : (r.andThen k).Answers := by
  rcases h with rfl | ⟨c, u, _, rfl⟩
  · exact hk
  · trivial

theorem WriterOutcome.refl (op : Opcode) (s : State) : WriterOutcome op s s := (Emitting.refl op s).raw ⟨rfl, rfl⟩

/-- Everything a command that emits bytes can leave, in every state (rule R52). -/
theorem exec_emitting {i : Instr} (hi : emittingCommand i = true) {s t : State} (h : exec i s = .next t) :
    WriterOutcome (opcodeOf i) s t := by
  refine exec_leaves (.refl _ s) ?_ h
  cases i with
  | putBits bits nbits => exact putCode_outcome _ _ _ s
  | putPackedCode code => exact putCode_outcome _ _ _ s
  | flushBits => exact (writerGuard_checks _ s).outcome (flushBytes_outcome _ s)
  | flush => exact (writerGuard_checks _ s).outcome (paddedFlush_outcome _ s)
  | putByte value =>
    rw [commandBody, Run.andThen_assoc]
    exact (writerGuard_checks _ s).outcome ((requireNoPending_checks _ s).outcome (emitByte_outcome _ value s))
  | putBytes size payload =>
    rw [commandBody, Run.andThen_assoc, Run.andThen_assoc]
    exact (requirePayload_checks _ size payload s).outcome
      ((writerGuard_checks _ s).outcome ((requireNoPending_checks _ s).outcome (emitRaw_outcome _ payload s)))
  | sreset | srelease | reserve | finalize | caddBits | caddPackedCode | csize => cases hi

theorem CounterFrame.refl (s : State) : CounterFrame s s := ⟨rfl, rfl, rfl, rfl, rfl, rfl⟩

/-- No command of the bit counter leaves its frame, in any state (rule R190). -/
theorem exec_counter_frame {i : Instr} (hi : counterCommand i = true) {s t : State} (h : exec i s = .next t) :
    CounterFrame s t := by
  refine exec_leaves (.refl s) ?_ h
  cases i with
  | caddBits bits nbits => exact (addCode_outcome _ _ _ s).imp fun _ k => k.frame
  | caddPackedCode code => exact (addCode_outcome _ _ _ s).imp fun _ k => k.frame
  | csize =>
    rw [commandBody]
    split
    · exact (CounterOutcome.raised 0xD#4 s (c := .counterOverflow) (u := .counter) rfl).frame
    · exact ⟨rfl, rfl, rfl, rfl, rfl, rfl⟩
  | sreset | srelease | reserve | putBits | flushBits | putByte | putBytes | putPackedCode | flush | finalize => cases hi

/-- Everything SRESET can leave (rules R130, R213). -/
theorem exec_sreset_cases {s t : State} (h : exec .sreset s = .next t) : t = s ∨ t = abandonWriter (sinkReset s) := by
  rcases exec_next_cases h with ⟨_, rfl⟩ | ⟨_, e⟩
  · exact .inl rfl
  · cases e
    exact .inr rfl

/-- Everything SRELEASE can leave (rules R133, R134, R213). -/
theorem exec_srelease_cases {s t : State} (h : exec .srelease s = .next t) :
    t = s ∨ t = latchFault .releaseInvalid .sink 0x2#4 s ∨ t = deliver s := by
  rcases exec_next_cases h with ⟨_, rfl⟩ | ⟨_, e⟩
  · exact .inl rfl
  · cases e
    rcases releaseResult_cases s with ⟨_, _, e⟩ | e
    · exact .inr (.inr e)
    · exact .inr (.inl e)

/-- The states RESERVE can leave (rules R140, R145, R148, R213). -/
inductive ReserveLeaves (size : Word) (s : State) : State → Prop where
  | faulted (hf : faultV s = true) : ReserveLeaves size s s
  | inactive (hr : Running s) (hm : s.w.mode ≠ .active) :
      ReserveLeaves size s (latchFault .writerNotActive .writer 0x3#4 s)
  | notOpen (hw : WriterReady s) (ho : s.sink.state ≠ .opened) :
      ReserveLeaves size s (latchFault .sinkNotOpen .sink 0x3#4 s)
  | committed (hw : WriterReady s) (ho : s.sink.state = .opened) {u : State} (hu : CommitOk s.w.pos size.toNat s u) :
      ReserveLeaves size s { u with w := { u.w with pos := 0, rsv := size.toNat }, resp := 1#64 }
  | failed (hw : WriterReady s) (ho : s.sink.state = .opened) {u : State} (hu : CommitFail s.w.pos s u) :
      ReserveLeaves size s { u with w := { u.w with mode := .failed }, resp := 0#64 }

theorem exec_reserve_leaves {size : Word} {s t : State} (h : exec (.reserve size) s = .next t) :
    ReserveLeaves size s t := by
  rcases exec_next_cases h with ⟨hf, rfl⟩ | ⟨hr, hb⟩
  · exact .faulted hf
  rw [commandBody] at hb
  rcases writerGuard_cases 0x3#4 s with ⟨hm, e⟩ | ⟨hm, e⟩ <;> rw [e] at hb
  · rw [Run.go_andThen] at hb
    rcases sinkCommit_cases 0x3#4 s.w.pos size.toNat s with ⟨ho, e⟩ | ⟨ho, u, hu, e⟩ | ⟨ho, u, hu, e⟩ <;>
      rw [e] at hb <;> cases hb
    · exact .notOpen ⟨hr, hm⟩ ho
    · exact .committed ⟨hr, hm⟩ ho hu
    · exact .failed ⟨hr, hm⟩ ho hu
  · cases hb
    exact .inactive hr hm

/-- The states FINALIZE can leave (rules R140, R180 to R182, R213). -/
inductive FinalizeLeaves (s : State) : State → Prop where
  | faulted (hf : faultV s = true) : FinalizeLeaves s s
  | inactive (hr : Running s) (hm : s.w.mode ≠ .active) :
      FinalizeLeaves s (latchFault .writerNotActive .writer 0xA#4 s)
  | notOpen (hw : WriterReady s) (ho : s.sink.state ≠ .opened) :
      FinalizeLeaves s (latchFault .sinkNotOpen .sink 0xA#4 s)
  | commitFailed (hw : WriterReady s) (ho : s.sink.state = .opened) {u : State} (hu : CommitFail s.w.pos s u) :
      FinalizeLeaves s (finishWriter false u)
  | trimmed (hw : WriterReady s) (ho : s.sink.state = .opened) {u : State} (hu : CommitOk s.w.pos 0 s u)
      (ha : oracleAnswer u.oracle = true) : FinalizeLeaves s (finishWriter true (trimSink (closeRegion u).withDraw))
  | trimFailed (hw : WriterReady s) (ho : s.sink.state = .opened) {u : State} (hu : CommitOk s.w.pos 0 s u)
      (ha : oracleAnswer u.oracle = false) : FinalizeLeaves s (finishWriter false (breakSink (closeRegion u).withDraw))

theorem exec_finalize_leaves {s t : State} (h : exec .finalize s = .next t) : FinalizeLeaves s t := by
  rcases exec_next_cases h with ⟨hf, rfl⟩ | ⟨hr, hb⟩
  · exact .faulted hf
  rw [commandBody] at hb
  rcases writerGuard_cases 0xA#4 s with ⟨hm, e⟩ | ⟨hm, e⟩ <;> rw [e] at hb
  · rw [Run.go_andThen] at hb
    rcases sinkCommit_cases 0xA#4 s.w.pos 0 s with ⟨ho, e⟩ | ⟨ho, u, hu, e⟩ | ⟨ho, u, hu, e⟩ <;> rw [e] at hb
    · cases hb
      exact .notOpen ⟨hr, hm⟩ ho
    · have hopen : (closeRegion u).sink.state = .opened := hu.keeps.state.trans ho
      simp only [finalizeAfterCommit] at hb
      rcases sinkFinalize_cases hopen 0xA#4 with ⟨ha, e⟩ | ⟨ha, e⟩ <;> rw [e] at hb <;> cases hb
      · exact .trimmed ⟨hr, hm⟩ ho hu ha
      · exact .trimFailed ⟨hr, hm⟩ ho hu ha
    · cases hb
      exact .commitFailed ⟨hr, hm⟩ ho hu
  · cases hb
    exact .inactive hr hm

/-- The families of rule R104's commands: emitting, counting, the two sink commands and the two that commit. -/
theorem command_families (i : Instr) : emittingCommand i = true ∨ counterCommand i = true ∨ i = .sreset ∨
    i = .srelease ∨ (∃ size, i = .reserve size) ∨ i = .finalize := by
  cases i <;> simp [emittingCommand, counterCommand]

/-! ### The configuration is constant (rules R13, R41) -/

theorem ReserveLeaves.cfg {size : Word} {s t : State} (h : ReserveLeaves size s t) : t.cfg = s.cfg := by
  cases h with
  | faulted => rfl
  | inactive => exact latchFault_cfg _ _ _ s
  | notOpen => exact latchFault_cfg _ _ _ s
  | committed _ _ hu => exact hu.keeps.cfg
  | failed _ _ hu => exact hu.breaks.cfg

theorem FinalizeLeaves.cfg {s t : State} (h : FinalizeLeaves s t) : t.cfg = s.cfg := by
  cases h with
  | faulted => rfl
  | inactive => exact latchFault_cfg _ _ _ s
  | notOpen => exact latchFault_cfg _ _ _ s
  | commitFailed _ _ hu => exact hu.breaks.cfg
  | trimmed _ _ hu => simpa using hu.keeps.cfg
  | trimFailed _ _ hu => exact hu.keeps.cfg

theorem exec_cfg {i : Instr} {s t : State} (h : exec i s = .next t) : t.cfg = s.cfg := by
  rcases command_families i with hi | hi | rfl | rfl | ⟨size, rfl⟩ | rfl
  · exact (exec_emitting hi h).frame.cfg
  · exact (exec_counter_frame hi h).cfg
  · rcases exec_sreset_cases h with rfl | rfl <;> rfl
  · rcases exec_srelease_cases h with rfl | rfl | rfl <;> simp
  · exact (exec_reserve_leaves h).cfg
  · exact (exec_finalize_leaves h).cfg

theorem runCommand_cfg {w : CmdWord} {p : List Byte} {s t : State} (h : runCommand w p s = .next t) :
    t.cfg = s.cfg := by
  cases hd : decode w p with
  | ok i => exact exec_cfg ((runCommand_decoded hd s).symm.trans h)
  | error r =>
    rw [runCommand_rejected hd] at h
    cases h
    exact latchFault_cfg _ _ _ s

@[simp] theorem constructWriter_cfg (s : State) : (constructWriter s).cfg = s.cfg := by
  unfold constructWriter; split <;> rfl

@[simp] theorem constructCounter_cfg (s : State) : (constructCounter s).cfg = s.cfg := by
  unfold constructCounter; split <;> rfl

/-- Settles O53: of the four events only the power-on reset brings a configuration. -/
theorem configurationIsConstant : Obligations.ConfigurationIsConstant := by
  intro s t hno h
  cases hp : s.port with
  | nil =>
    rw [step_idle hp] at h
    cases h
    rfl
  | cons e rest =>
    rw [step_event hp] at h
    cases e with
    | command w p => exact runCommand_cfg (s := s.withPort rest) h
    | rstAll cfg => exact absurd hp (hno cfg rest)
    | rstW =>
      cases h
      exact constructWriter_cfg _
    | rstC =>
      cases h
      exact constructCounter_cfg _

/-! ### Committed bytes are kept (rules R43, R69) -/

/-- S.USED has not shrunk and every byte committed in `s` reads in `t` as before. -/
def CommittedKept (s t : State) : Prop :=
  s.sink.used ≤ t.sink.used ∧ ∀ a, a < s.sink.used → t.sink.buf.read a = s.sink.buf.read a

theorem CommittedKept.of_sink_eq {s t : State} (h : t.sink = s.sink) : CommittedKept s t := by
  unfold CommittedKept
  rw [h]
  exact ⟨le_rfl, fun _ _ => rfl⟩

theorem WriterFrame.committedKept {s t : State} (h : WriterFrame s t) : CommittedKept s t :=
  ⟨h.used.ge, fun a ha => h.bytes a (.inl (by omega))⟩

theorem CommitKeeps.committedKept {n : Nat} {s t : State} (h : CommitKeeps n s t) : CommittedKept s t :=
  ⟨h.used ▸ Nat.le_add_right _ _, fun a ha => h.bytes a (by omega)⟩

/-- The trim of Finalize cuts at S.USED, so above every committed byte (rules R77, R80). -/
theorem CommittedKept.trimSink {s t : State} (h : CommittedKept s t) : CommittedKept s (trimSink t) := by
  obtain ⟨hused, hbytes⟩ := h
  refine ⟨by simpa using hused, fun a ha => ?_⟩
  rw [trimSink_sink_buf, Memory.read_take, if_pos (by omega), hbytes a ha]

theorem ReserveLeaves.committedKept {size : Word} {s t : State} (h : ReserveLeaves size s t)
    (hv : t.sink.state ≠ .broken) : CommittedKept s t := by
  cases h with
  | faulted => exact .of_sink_eq rfl
  | inactive => exact .of_sink_eq (latchFault_sink _ _ _ s)
  | notOpen => exact .of_sink_eq (latchFault_sink _ _ _ s)
  | committed _ _ hu => exact hu.keeps.committedKept
  | failed _ _ hu => exact absurd hu.breaks.state hv

theorem FinalizeLeaves.committedKept {s t : State} (h : FinalizeLeaves s t) (hv : t.sink.state ≠ .broken) :
    CommittedKept s t := by
  cases h with
  | faulted => exact .of_sink_eq rfl
  | inactive => exact .of_sink_eq (latchFault_sink _ _ _ s)
  | notOpen => exact .of_sink_eq (latchFault_sink _ _ _ s)
  | commitFailed _ _ hu => exact absurd hu.breaks.state hv
  | trimmed _ _ hu => exact CommittedKept.trimSink (t := (closeRegion _).withDraw) hu.keeps.committedKept
  | trimFailed _ _ hu => exact absurd rfl hv

/-- Settles O54: a byte below S.USED lies below every cursor a command writes at, and a failed Commit or Finalize leaves the
sink BROKEN, as a delivery leaves it RELEASED. -/
theorem committedBytesAreKept : Obligations.CommittedBytesAreKept := by
  intro i s t _ h hne hv
  show CommittedKept s t
  have hb : t.sink.state ≠ .broken := fun e => by simp [e] at hv
  rcases command_families i with hi | hi | rfl | rfl | ⟨size, rfl⟩ | rfl
  · exact (exec_emitting hi h).frame.committedKept
  · exact .of_sink_eq (exec_counter_frame hi h).sink
  · exact absurd rfl hne
  · rcases exec_srelease_cases h with rfl | rfl | rfl
    · exact .of_sink_eq rfl
    · exact .of_sink_eq (latchFault_sink _ _ _ s)
    · simp at hv
  · exact (exec_reserve_leaves h).committedKept hb
  · exact (exec_finalize_leaves h).committedKept hb

/-! ### No run stops (rules R60, R68, R94) -/

/-- The region clause of the invariant, as the store needs it: an active writer's region lies in S.BUF. -/
theorem Inv.regionInside {s : State} (h : Inv s) (hm : s.w.mode = .active) : RegionInside s :=
  (h.region hm).imp id And.right

/-- Where an active writer's region lies in S.BUF, every command answers a next state. -/
theorem exec_answers {s : State} (h : s.w.mode = .active → RegionInside s) (i : Instr) : ∃ t, exec i s = .next t := by
  refine exec_answers_of_body ?_
  cases i with
  | sreset => trivial
  | srelease => trivial
  | reserve size => exact writerGuard_answers _ s fun _ => trivial
  | finalize => exact writerGuard_answers _ s fun _ => trivial
  | putBits bits nbits => exact putCode_answers _ _ _ h
  | putPackedCode code => exact putCode_answers _ _ _ h
  | flushBits => exact writerGuard_answers _ s fun hm => flushBytes_answers (h hm) _
  | flush => exact writerGuard_answers _ s fun hm => flushBytes_answers (s := padBits s) (h hm) _
  | putByte value =>
    rw [commandBody, Run.andThen_assoc]
    exact writerGuard_answers _ s fun hm => (requireNoPending_checks _ s).answers (emitByte_answers (h hm) _ value)
  | putBytes size payload =>
    rw [commandBody, Run.andThen_assoc, Run.andThen_assoc]
    exact (requirePayload_checks _ size payload s).answers (writerGuard_answers _ s fun hm =>
      (requireNoPending_checks _ s).answers (emitRaw_answers (h hm) _ payload))
  | caddBits bits nbits => exact addCode_answers _ _ _ s
  | caddPackedCode code => exact addCode_answers _ _ _ s
  | csize =>
    rw [commandBody]
    split <;> trivial

theorem runEvent_answers {s : State} (h : s.w.mode = .active → RegionInside s) (e : Event) :
    ∃ t, runEvent e s = .next t := by
  cases e with
  | command w p =>
    show ∃ t, runCommand w p s = .next t
    cases hd : decode w p with
    | ok i =>
      rw [runCommand_decoded hd]
      exact exec_answers h i
    | error r => exact ⟨_, runCommand_rejected hd s⟩
  | rstAll cfg => exact ⟨_, rfl⟩
  | rstW => exact ⟨_, rfl⟩
  | rstC => exact ⟨_, rfl⟩

/-- Settles O52: the invariant puts an active writer's region inside S.BUF, so no store lacks an address. -/
theorem invariantNeverStops : Obligations.InvariantNeverStops := by
  intro s hinv
  refine ⟨exec_answers hinv.regionInside, ?_⟩
  cases hp : s.port with
  | nil => exact ⟨s, step_idle hp⟩
  | cons e rest =>
    rw [step_event hp]
    exact runEvent_answers (s := s.withPort rest) hinv.regionInside e

/-! ### Two runs that differ in the opcode they record (log entry 18) -/

/-- The same run, or one cause raised in one state under two opcodes. -/
inductive Run.SameButOp : Run → Run → Prop where
  | refl (r : Run) : Run.SameButOp r r
  | raised (c : Cause) (u : BlockUnit) (op op' : Opcode) (s : State) :
      Run.SameButOp (raise c u op s) (raise c u op' s)

theorem Run.SameButOp.andThen {r r' : Run} {k k' : State → Run} (h : r.SameButOp r')
    (hk : ∀ s, (k s).SameButOp (k' s)) : (r.andThen k).SameButOp (r'.andThen k') := by
  cases h with
  | refl =>
    cases r with
    | go s => exact hk s
    | ended s => exact .refl _
    | stop f => exact .refl _
  | raised c u op op' s => exact .raised c u op op' s

/-- FAULT.OP = FAULT[10:7] is the part of a latched FAULT that the blanking takes away (rule R47). -/
theorem faultWord_blanked (c : Cause) (u : BlockUnit) (op : Opcode) :
    faultWord c u op &&& 0b00001111111#11 = 0#4 ++ unitCode u ++ causeCode c ++ 1#1 := by
  have mask : 0b00001111111#11 = 0#4 ++ BitVec.allOnes 2 ++ BitVec.allOnes 4 ++ BitVec.allOnes 1 := by decide
  rw [faultWord, mask, BitVec.and_append, BitVec.and_append, BitVec.and_append]
  simp only [BitVec.and_zero, BitVec.and_allOnes]

theorem blankOp_latchFault (c : Cause) (u : BlockUnit) (op op' : Opcode) (s : State) :
    blankOp (.next (latchFault c u op s)) = blankOp (.next (latchFault c u op' s)) := by
  unfold latchFault
  split
  · rfl
  · simp only [blankOp, faultWord_blanked]

theorem Run.SameButOp.blankOp {r r' : Run} (h : r.SameButOp r') : blankOp r.outcome = blankOp r'.outcome := by
  cases h with
  | refl => rfl
  | raised c u op op' s => exact blankOp_latchFault c u op op' s

theorem blankOp_whenRunning {s : State} {k k' : State → Run} (h : (k s).SameButOp (k' s)) :
    blankOp (whenRunning s k) = blankOp (whenRunning s k') := by
  unfold whenRunning
  split
  · rfl
  · exact h.blankOp

section
variable (op op' : Opcode)

theorem writerGuard_sameButOp (s : State) : (writerGuard op s).SameButOp (writerGuard op' s) := by
  unfold writerGuard
  split
  · exact .refl _
  · exact .raised _ _ op op' s

theorem checkCode_sameButOp (unit : BlockUnit) (v : Word) (n : Nat) (s : State) :
    (checkCode unit op v n s).SameButOp (checkCode unit op' v n s) := by
  unfold checkCode
  split
  · exact .raised _ _ op op' s
  · split
    · exact .raised _ _ op op' s
    · exact .refl _

theorem emitByte_sameButOp (b : Byte) (s : State) : (emitByte op b s).SameButOp (emitByte op' b s) := by
  unfold emitByte
  split
  · exact .raised _ _ op op' s
  · exact .refl _

theorem emitStuffing_sameButOp (b : Byte) (s : State) : (emitStuffing op b s).SameButOp (emitStuffing op' b s) := by
  unfold emitStuffing
  split
  · exact emitByte_sameButOp op op' _ s
  · exact .refl _

theorem flushOne_sameButOp (s : State) : (flushOne op s).SameButOp (flushOne op' s) :=
  ((emitByte_sameButOp op op' _ s).andThen (emitStuffing_sameButOp op op' _)).andThen fun _ => .refl _

theorem flushLoop_sameButOp (fuel : Nat) (s : State) : (flushLoop op fuel s).SameButOp (flushLoop op' fuel s) := by
  induction fuel generalizing s with
  | zero => exact .refl _
  | succ fuel ih =>
    rw [flushLoop, flushLoop]
    split
    · exact (flushOne_sameButOp op op' s).andThen ih
    · exact .refl _

theorem putCode_sameButOp (v : Word) (n : Nat) (s : State) : (putCode op v n s).SameButOp (putCode op' v n s) :=
  (((writerGuard_sameButOp op op' s).andThen (checkCode_sameButOp op op' .writer v n)).andThen
    fun s => flushLoop_sameButOp op op' s.w.nb s).andThen fun _ => .refl _

theorem counterAdd_sameButOp (k : Nat) (s : State) : (counterAdd op k s).SameButOp (counterAdd op' k s) := by
  unfold counterAdd
  split
  · exact .raised _ _ op op' s
  · exact .refl _

theorem countFlushLoop_sameButOp (fuel : Nat) (s : State) :
    (countFlushLoop op fuel s).SameButOp (countFlushLoop op' fuel s) := by
  induction fuel generalizing s with
  | zero => exact .refl _
  | succ fuel ih =>
    rw [countFlushLoop, countFlushLoop]
    split
    · exact ((counterAdd_sameButOp op op' _ s).andThen fun _ => .refl _).andThen ih
    · exact .refl _

theorem addCode_sameButOp (v : Word) (n : Nat) (s : State) : (addCode op v n s).SameButOp (addCode op' v n s) :=
  ((checkCode_sameButOp op op' .counter v n s).andThen
    fun s => countFlushLoop_sameButOp op op' s.c.nb s).andThen fun _ => .refl _

end

/-- Settles O30: each pair of commands runs one body on one value and count, under two opcodes. -/
theorem packedCodeIsSplitCode : Obligations.PackedCodeIsSplitCode := by
  intro code bits nbits s hbits hnbits
  have hv : BitVec.ofNat 32 (code.toNat / 256) = bits := by rw [← hbits, BitVec.ofNat_toNat, BitVec.setWidth_eq]
  have hput : codeOperands (.putPackedCode code) = some (.writer, bits, nbits.toNat) := by
    rw [codeOperands, hv, hnbits]
  have hadd : codeOperands (.caddPackedCode code) = some (.counter, bits, nbits.toNat) := by
    rw [codeOperands, hv, hnbits]
  constructor
  · rw [exec_putCode hput, exec_putCode (i := .putBits bits nbits) rfl]
    exact blankOp_whenRunning (putCode_sameButOp _ _ _ _ s)
  · rw [exec_addCode hadd, exec_addCode (i := .caddBits bits nbits) rfl]
    exact blankOp_whenRunning (addCode_sameButOp _ _ _ _ s)

/-! ### The padded flush (rules R175 to R177) -/

/-- The pad of rule R176 written with the numerals the statements use. -/
theorem padOnes_padCount (acc : Word) (nb : Nat) :
    padOnes acc nb (padCount nb) = acc ||| (BitVec.ofNat 32 (2 ^ padCount nb - 1) <<< (32 - nb - padCount nb)) := by
  rw [padOnes, ones_eq (padCount_lt nb)]

/-- Once padded, every pending bit is in a whole byte, so a flush leaves the accumulator empty. -/
theorem padBits_flushed {s : State} (hn : s.w.nb ≤ 31) (hl : s.w.acc <<< s.w.nb = 0#32) :
    (padBits s).flushed ((padBits s).w.nb / 8) =
      (s.withOutput (flushOutput (padBits s).w.acc ((padBits s).w.nb / 8))).withBits 0#32 0 := by
  have hwhole : 8 * ((padBits s).w.nb / 8) = (padBits s).w.nb := padCount_whole s.w.nb
  have hempty : (padBits s).w.acc <<< (padBits s).w.nb = 0#32 := padOnes_shift hn hl
  rw [State.flushed, hwhole, hempty, Nat.sub_self]
  rfl

/-- Settles O32: the pad makes whole bytes, `flushBytes_room` emits them all, and no bit is left. -/
theorem flushPadsAndEmpties : Obligations.FlushPadsAndEmpties := by
  rintro s pad out hinv hw rfl rfl hroom
  have hout := padOnes_padCount s.w.acc s.w.nb
  rw [← show padCount s.w.nb = (8 - s.w.nb % 8) % 8 from rfl, ← hout] at hroom ⊢
  rw [exec_flush hw, flushBytes_room 0x9#4 (s := padBits s) hroom,
    padBits_flushed (hinv.writerCount.2 hw.1) hinv.writerLow]
  rfl

/-! ### What a flush that does not fault has written (rules R10, R141) -/

/-- The sink and the cursor after a command that flushes and does not fault: those of the output of the `k` bytes flushed, FLUSH
counting the padded one. -/
theorem exec_flushing_output {i : Instr} {s t : State} (hi : flushingCommand i = true) (hw : WriterReady s)
    (h : exec i s = .next t) (hr : Running t) :
    ∃ acc k, k = (if i = .flush then (s.w.nb + 7) / 8 else s.w.nb / 8) ∧
      t.sink = (s.withOutput (flushOutput acc k)).sink ∧ t.w.pos = s.w.pos + (flushOutput acc k).length := by
  have code : ∀ {v n}, codeOperands i = some (.writer, v, n) →
      t.sink = (s.flushed (s.w.nb / 8)).sink ∧ t.w.pos = (s.flushed (s.w.nb / 8)).w.pos := fun {v n} hc => by
    rw [exec_putCode hc, whenRunning_running hw.1] at h
    obtain ⟨u, hu, hgo⟩ := Run.andThen_go ((putCode_endsFaulted _ v n s).running h hr)
    obtain ⟨u', hu', hflush⟩ := Run.andThen_go hu
    rw [writerGuard_active hw.2, Run.go_andThen] at hu'
    rcases checkCode_cases .writer (opcodeOf i) v n s with ⟨e, _⟩ | e | e <;> rw [e] at hu' <;> cases hu'
    cases hgo
    rw [flushBytes_go_eq hflush]
    exact ⟨rfl, rfl⟩
  cases i with
  | putBits bits nbits => exact ⟨_, _, rfl, code rfl⟩
  | putPackedCode c => exact ⟨_, _, rfl, code rfl⟩
  | flushBits =>
    rw [exec_flushBits hw] at h
    rw [flushBytes_go_eq ((flushBytes_endsFaulted _ s).running h hr)]
    exact ⟨_, _, rfl, rfl, rfl⟩
  | flush =>
    rw [exec_flush hw] at h
    rw [flushBytes_go_eq ((flushBytes_endsFaulted _ (padBits s)).running h hr)]
    exact ⟨_, _, (padCount_ceil s.w.nb), rfl, rfl⟩
  | sreset | srelease | reserve | putByte | putBytes | finalize | caddBits | caddPackedCode | csize => cases hi

/-- Bytes written in order read back in order. -/
theorem Memory.read_writeList_getElem (m : Memory) (a : Nat) (bs : List Byte) {k : Nat} (h : k < bs.length) :
    (m.writeList a bs).read (a + k) = bs[k]? := by
  rw [Memory.read_writeList_inside m a bs h, List.getElem?_eq_getElem h]

/-- Settles O34: the bytes written are a flush's output, in which a stuffed zero follows every marker. -/
theorem everyFlushedMarkerIsStuffed : Obligations.EveryFlushedMarkerIsStuffed := by
  intro i s t a hi hw h hr hlo hhi hread
  obtain ⟨acc, k, _, hsink, hpos⟩ := exec_flushing_output hi hw h hr
  obtain ⟨j, rfl⟩ := Nat.exists_eq_add_of_le hlo
  have hj : j < (flushOutput acc k).length := by omega
  rw [hsink, State.withOutput_sink, Memory.read_writeList_getElem _ _ _ hj] at hread
  have hzero := flushOutput_stuffed acc k hread
  obtain ⟨hj', _⟩ := List.getElem?_eq_some_iff.1 hzero
  refine ⟨by omega, ?_⟩
  rw [hsink, State.withOutput_sink, Nat.add_assoc, Memory.read_writeList_getElem _ _ _ hj', hzero]

/-! ### The size limit (rule R15) -/

/-- Settles O21: above MAX_BUF both backends fail before they ask the oracle, and a failed Commit is a result, no fault. -/
theorem reserveAboveMaxBufFails : Obligations.ReserveAboveMaxBufFails := by
  intro s size hw ho hlimit
  have hfail : sinkCommit 0x3#4 s.w.pos size.toNat s =
      { verdict := .fail, state := breakSink (acknowledge s.w.pos s) } := by
    rcases hlimit with ⟨hk, hcap, hm⟩ | ⟨hk, hm⟩
    · exact sinkCommit_growLimit ho hk _ _ _ hcap hm
    · exact sinkCommit_resizeLimit ho hk _ _ _ hm
  rw [exec_reserve hw, hfail]
  rfl

end Sys2Proof.Machine

/-! PROOFS. The family of 10_state.md: the invariant at power-on (O50) and over every step (O51), the frames of the emitting, the
committing and the counter commands (O41, O42, O47), the writers of RESP (O56), the states no command leaves (O57), and the
fields of STATUS and FAULT (O58). -/

namespace Sys2Proof.Machine

/-! ### FAULT over one command (rules R211, R212) -/

/-- FAULT is as before, or holds a cause latched for one of the cause's units. -/
def FaultStep (s t : State) : Prop :=
  t.fault = s.fault ∨ ∃ c u op, causeUnit c u = true ∧ t.fault = faultWord c u op

theorem FaultStep.latch {c : Cause} {u : BlockUnit} (h : causeUnit c u = true) (op : Opcode) (s : State) :
    FaultStep s (latchFault c u op s) :=
  (latchFault_fault_cases c u op s).imp id fun e => ⟨c, u, op, h, e⟩

/-- A block that is running after has latched nothing. -/
theorem FaultStep.running {s t : State} (h : FaultStep s t) (hr : Running t) : t.fault = s.fault := by
  rcases h with e | ⟨c, u, op, _, e⟩
  · exact e
  · have hv : faultV t = true := by rw [faultV, e, faultV_faultWord]
    exact absurd (hv.symm.trans hr) (by decide)

theorem WriterOutcome.faultStep {op : Opcode} {s t : State} (h : WriterOutcome op s t) : FaultStep s t :=
  h.fault.imp id fun ⟨c, u, hcu, e⟩ => ⟨c, u, op, hcu, e⟩

theorem CounterOutcome.faultStep {op : Opcode} {s t : State} (h : CounterOutcome op s t) : FaultStep s t :=
  h.fault.imp id fun ⟨c, u, hcu, e⟩ => ⟨c, u, op, hcu, e⟩

/-! ### RESERVE and FINALIZE: what they leave alone, and where they leave W and S alone (rules R52, R146, R182) -/

/-- What RESERVE and FINALIZE leave unchanged in every outcome. -/
structure CommittingFrame (s t : State) : Prop where
  c : t.c = s.c
  acc : t.w.acc = s.w.acc
  nb : t.w.nb = s.w.nb
  cfg : t.cfg = s.cfg
  port : t.port = s.port
  delivered : t.delivered = s.delivered
  fault : FaultStep s t

theorem CommittingFrame.refl (s : State) : CommittingFrame s s := ⟨rfl, rfl, rfl, rfl, rfl, rfl, .inl rfl⟩

theorem CommittingFrame.latch {c : Cause} {u : BlockUnit} (h : causeUnit c u = true) (op : Opcode) (s : State) :
    CommittingFrame s (latchFault c u op s) where
  c := latchFault_c c u op s
  acc := by rw [latchFault_w]
  nb := by rw [latchFault_w]
  cfg := latchFault_cfg c u op s
  port := latchFault_port c u op s
  delivered := latchFault_delivered c u op s
  fault := .latch h op s

theorem CommitKeeps.frame {n : Nat} {s t : State} (h : CommitKeeps n s t) : CommittingFrame s t :=
  ⟨h.c, by rw [h.w], by rw [h.w], h.cfg, h.port, h.delivered, .inl h.fault⟩

theorem CommitBreaks.frame {n : Nat} {s t : State} (h : CommitBreaks n s t) : CommittingFrame s t :=
  ⟨h.c, by rw [h.w], by rw [h.w], h.cfg, h.port, h.delivered, .inl h.fault⟩

/-- The trim of Finalize, a failed one too, and the end of the writer touch nothing of the frame. -/
theorem CommittingFrame.trimmed {s u : State} (h : CommittingFrame s u) :
    CommittingFrame s (finishWriter true (trimSink (closeRegion u).withDraw)) :=
  ⟨by simpa using h.c, by simpa using h.acc, by simpa using h.nb, by simpa using h.cfg, by simpa using h.port,
    by simpa using h.delivered, by simpa [FaultStep] using h.fault⟩

theorem ReserveLeaves.frame {size : Word} {s t : State} (h : ReserveLeaves size s t) : CommittingFrame s t := by
  cases h with
  | faulted => exact .refl s
  | inactive => exact .latch rfl _ s
  | notOpen => exact .latch rfl _ s
  | committed _ _ hu => exact { hu.keeps.frame with }
  | failed _ _ hu => exact { hu.breaks.frame with }

theorem FinalizeLeaves.frame {s t : State} (h : FinalizeLeaves s t) : CommittingFrame s t := by
  cases h with
  | faulted => exact .refl s
  | inactive => exact .latch rfl _ s
  | notOpen => exact .latch rfl _ s
  | commitFailed _ _ hu => exact { hu.breaks.frame with }
  | trimmed _ _ hu => exact hu.keeps.frame.trimmed
  | trimFailed _ _ hu => exact { hu.keeps.frame with }

theorem exec_committing_frame {i : Instr} (hi : i = .finalize ∨ ∃ size, i = .reserve size) {s t : State}
    (h : exec i s = .next t) : CommittingFrame s t := by
  rcases hi with rfl | ⟨size, rfl⟩
  · exact (exec_finalize_leaves h).frame
  · exact (exec_reserve_leaves h).frame

/-- Unless the writer is ACTIVE over an OPEN sink, RESERVE and FINALIZE change neither W nor S. -/
theorem exec_committing_stays {i : Instr} (hi : i = .finalize ∨ ∃ size, i = .reserve size) {s t : State}
    (hs : s.w.mode ≠ .active ∨ s.sink.state ≠ .opened) (h : exec i s = .next t) : t.w = s.w ∧ t.sink = s.sink := by
  have latch : ∀ c u op, (latchFault c u op s).w = s.w ∧ (latchFault c u op s).sink = s.sink := fun c u op =>
    ⟨latchFault_w c u op s, latchFault_sink c u op s⟩
  have impossible : ∀ {p : Prop}, WriterReady s → s.sink.state = .opened → p := fun hw ho =>
    (hs.elim (fun hm => hm hw.2) (fun hn => hn ho)).elim
  rcases hi with rfl | ⟨size, rfl⟩
  · cases exec_finalize_leaves h with
    | faulted => exact ⟨rfl, rfl⟩
    | inactive => exact latch _ _ _
    | notOpen => exact latch _ _ _
    | commitFailed hw ho => exact impossible hw ho
    | trimmed hw ho => exact impossible hw ho
    | trimFailed hw ho => exact impossible hw ho
  · cases exec_reserve_leaves h with
    | faulted => exact ⟨rfl, rfl⟩
    | inactive => exact latch _ _ _
    | notOpen => exact latch _ _ _
    | committed hw ho => exact impossible hw ho
    | failed hw ho => exact impossible hw ho

/-- Settles O42: `exec_committing_frame`, with FAULT as `FaultStep.running` gives it. -/
theorem committingCommandFrame : Obligations.CommittingCommandFrame := by
  intro i s t hi h
  have hf := exec_committing_frame hi h
  exact ⟨hf.c, hf.acc, hf.nb, hf.cfg, hf.port, hf.delivered, hf.fault.running⟩

/-! ### The emitting commands (rules R52, R160, R165) -/

/-- A check and what follows it leave `P` where the continuation does and a fault latched in the same state meets it. -/
theorem Checks.leaves {op : Opcode} {s : State} {r : Run} (h : Checks op s r) {k : State → Run} {P : State → Prop}
    (hf : ∀ c u, P (latchFault c u op s)) (hk : (k s).Leaves P) : (r.andThen k).Leaves P := by
  rcases h with rfl | ⟨c, u, _, rfl⟩
  · exact hk
  · exact hf c u

/-- The emitting commands that do not flush are the raw ones, and they leave the pending bits. -/
theorem exec_raw_bits {i : Instr} (hi : emittingCommand i = true) (hn : flushingCommand i = false) {s t : State}
    (h : exec i s = .next t) : t.w.acc = s.w.acc ∧ t.w.nb = s.w.nb := by
  have latch : ∀ op c u, (latchFault c u op s).w.acc = s.w.acc ∧ (latchFault c u op s).w.nb = s.w.nb := fun op c u => by
    rw [latchFault_w]; exact ⟨rfl, rfl⟩
  refine exec_leaves (P := fun t => t.w.acc = s.w.acc ∧ t.w.nb = s.w.nb) ⟨rfl, rfl⟩ ?_ h
  cases i with
  | putByte value =>
    rw [commandBody, Run.andThen_assoc]
    exact (writerGuard_checks _ s).leaves (latch _) ((requireNoPending_checks _ s).leaves (latch _) (emitByte_bits _ value s))
  | putBytes size payload =>
    rw [commandBody, Run.andThen_assoc, Run.andThen_assoc]
    exact (requirePayload_checks _ size payload s).leaves (latch _) ((writerGuard_checks _ s).leaves (latch _)
      ((requireNoPending_checks _ s).leaves (latch _) (emitRaw_bits _ payload s)))
  | putBits | putPackedCode | flushBits | flush => cases hn
  | sreset | srelease | reserve | finalize | caddBits | caddPackedCode | csize => cases hi

/-- Settles O41: `exec_emitting` gives the frame in every outcome, `exec_raw_bits` the pending bits of the raw commands. -/
theorem emittingCommandFrame : Obligations.EmittingCommandFrame := fun _ _ _ hi h =>
  ⟨(exec_emitting hi h).frame, fun hn => exec_raw_bits hi hn h, (exec_emitting hi h).running⟩

/-! ### The counter commands (rules R190, R194, R199) -/

/-- Everything CADDBITS and CADDPACKEDCODE can leave, in every state. -/
theorem exec_adding {i : Instr} (hi : counterCommand i = true) (hne : i ≠ .csize) {s t : State}
    (h : exec i s = .next t) : CounterOutcome (opcodeOf i) s t := by
  refine exec_leaves (Counting.refl _ s).outcome ?_ h
  cases i with
  | caddBits bits nbits => exact addCode_outcome _ _ _ s
  | caddPackedCode code => exact addCode_outcome _ _ _ s
  | csize => exact absurd rfl hne
  | sreset | srelease | reserve | putBits | flushBits | putByte | putBytes | putPackedCode | flush | finalize => cases hi

/-- Everything CSIZE can leave (rules R196, R199, R213). -/
theorem exec_csize_cases {s t : State} (h : exec .csize s = .next t) :
    t = s ∨ t = latchFault .counterOverflow .counter 0xD#4 s ∨ ∃ r, t = { s with resp := r } := by
  rcases exec_next_cases h with ⟨_, rfl⟩ | ⟨_, e⟩
  · exact .inl rfl
  · rw [commandBody] at e
    split at e <;> cases e
    · exact .inr (.inl rfl)
    · exact .inr (.inr ⟨_, rfl⟩)

/-- Settles O47: the counter commands stay in their frame, and C is in the frame of every other command. -/
theorem counterIsIndependent : Obligations.CounterIsIndependent := by
  refine fun i s t h => ⟨fun hi => exec_counter_frame hi h, fun hn => ?_⟩
  rcases command_families i with hi | hi | rfl | rfl | hi | rfl
  · exact (exec_emitting hi h).frame.c
  · rw [hn] at hi
    cases hi
  · rcases exec_sreset_cases h with rfl | rfl <;> rfl
  · rcases exec_srelease_cases h with rfl | rfl | rfl <;> simp
  · exact (exec_committing_frame (.inr hi) h).c
  · exact (exec_committing_frame (.inl rfl) h).c

/-! ### RESP, the port and what was delivered (rules R46, R49, R133) -/

/-- Settles O56: each family's frame holds the port and, but for the four commands named, RESP. -/
theorem responseWriters : Obligations.ResponseWriters := by
  intro i s t h
  rcases command_families i with hi | hi | rfl | rfl | ⟨size, rfl⟩ | rfl
  · have hf := (exec_emitting hi h).frame
    exact ⟨hf.port, fun _ _ _ _ => hf.resp, fun _ => hf.delivered⟩
  · have hf := exec_counter_frame hi h
    exact ⟨hf.port, fun _ hne _ _ => (exec_adding hi hne h).resp, fun _ => hf.delivered⟩
  · rcases exec_sreset_cases h with rfl | rfl <;> exact ⟨rfl, fun _ _ _ _ => rfl, fun _ => rfl⟩
  · refine ⟨?_, fun _ _ hne _ => absurd rfl hne, fun hne => absurd rfl hne⟩
    rcases exec_srelease_cases h with rfl | rfl | rfl <;> simp
  · have hf := exec_committing_frame (.inr ⟨size, rfl⟩) h
    exact ⟨hf.port, fun _ _ _ hne => absurd rfl (hne size), fun _ => hf.delivered⟩
  · have hf := exec_committing_frame (.inl rfl) h
    exact ⟨hf.port, fun hne _ _ _ => absurd rfl hne, fun _ => hf.delivered⟩

/-! ### The states no command leaves (rules R36, R42, R84) -/

/-- SRELEASE leaves W, and a sink that is not FINALIZED (rule R134). -/
theorem exec_srelease_stays {s t : State} (h : exec .srelease s = .next t) :
    t.w = s.w ∧ (s.sink.state ≠ .finalized → t.sink = s.sink) := by
  rcases exec_next_cases h with ⟨_, rfl⟩ | ⟨_, e⟩
  · exact ⟨rfl, fun _ => rfl⟩
  · cases e
    rcases releaseResult_cases s with ⟨_, hfin, e⟩ | e <;> rw [e]
    · exact ⟨rfl, fun hn => absurd hfin hn⟩
    · exact ⟨latchFault_w _ _ _ s, fun _ => latchFault_sink _ _ _ s⟩

/-- Settles O57: only RESERVE, FINALIZE and SRESET write W.MODE or break or reopen the sink, and the first two need an ACTIVE
writer and an OPEN sink. -/
theorem terminalStatesStay : Obligations.TerminalStatesStay := by
  intro i s t h
  have closed : s.sink.state = .broken → s.sink.state ≠ .opened := fun hb ho => by rw [hb] at ho; cases ho
  have committing : (i = .finalize ∨ ∃ size, i = .reserve size) →
      (s.w.mode ≠ .active → t.w.mode = s.w.mode) ∧ (s.sink.state = .broken → i ≠ .sreset → t.sink.state = .broken) :=
    fun hi => ⟨fun hm => by rw [(exec_committing_stays hi (.inl hm) h).1],
      fun hb _ => by rw [(exec_committing_stays hi (.inr (closed hb)) h).2, hb]⟩
  rcases command_families i with hi | hi | rfl | rfl | hi | hi
  · have hf := (exec_emitting hi h).frame
    exact ⟨fun _ => hf.mode, fun hb _ => hf.sinkState.trans hb⟩
  · have hf := exec_counter_frame hi h
    exact ⟨fun _ => by rw [hf.w], fun hb _ => by rw [hf.sink, hb]⟩
  · refine ⟨fun hm => ?_, fun _ hne => absurd rfl hne⟩
    rcases exec_sreset_cases h with rfl | rfl
    · rfl
    · exact if_neg hm
  · obtain ⟨hw, hsink⟩ := exec_srelease_stays h
    exact ⟨fun _ => by rw [hw], fun hb _ => by rw [hsink (by rw [hb]; decide), hb]⟩
  · exact committing (.inr hi)
  · exact committing (.inl hi)

/-! ### The fields of STATUS and FAULT (rules R47, R48, R211) -/

theorem toNat_countField {n : Nat} (h : n < 32) : (countField n).toNat = n := by
  rw [countField, if_pos h, BitVec.toNat_ofNat, Nat.mod_eq_of_lt h]

theorem ofBool_faultV (s : State) : BitVec.ofBool (faultV s) = s.fault.extractLsb' 0 1 := by
  apply BitVec.eq_of_getLsbD_eq
  intro i hi
  obtain rfl : i = 0 := by omega
  simp [faultV]

/-- The eight fields of STATUS, lowest first: to read one, drop the fields below it. -/
theorem statusWord_fields (s : State) :
    (statusWord s).extractLsb' 0 5 = countField s.w.nb ∧ (statusWord s).extractLsb' 5 2 = modeCode s.w.mode ∧
    (statusWord s).extractLsb' 7 1 = 0#1 ∧ (statusWord s).extractLsb' 8 5 = countField s.c.nb ∧
    (statusWord s).extractLsb' 13 2 = sinkStateCode s.sink.state ∧
    (statusWord s).extractLsb' 15 1 = kindCode s.cfg.sinkKind ∧
    (statusWord s).extractLsb' 16 1 = BitVec.ofBool (faultV s) ∧ (statusWord s).extractLsb' 17 15 = 0#15 := by
  unfold statusWord
  refine ⟨?nb, ?mode, ?zero, ?counterNb, ?sinkState, ?kind, ?fault, ?upper⟩
  case nb => rw [BitVec.extractLsb'_append_eq_right]
  case mode =>
    rw [BitVec.extractLsb'_append_eq_of_le (by decide)]
    rw [BitVec.extractLsb'_append_eq_right]
  case zero =>
    iterate 2 rw [BitVec.extractLsb'_append_eq_of_le (by decide)]
    rw [BitVec.extractLsb'_append_eq_right]
  case counterNb =>
    iterate 3 rw [BitVec.extractLsb'_append_eq_of_le (by decide)]
    rw [BitVec.extractLsb'_append_eq_right]
  case sinkState =>
    iterate 4 rw [BitVec.extractLsb'_append_eq_of_le (by decide)]
    rw [BitVec.extractLsb'_append_eq_right]
  case kind =>
    iterate 5 rw [BitVec.extractLsb'_append_eq_of_le (by decide)]
    rw [BitVec.extractLsb'_append_eq_right]
  case fault =>
    iterate 6 rw [BitVec.extractLsb'_append_eq_of_le (by decide)]
    rw [BitVec.extractLsb'_append_eq_right]
  case upper =>
    iterate 6 rw [BitVec.extractLsb'_append_eq_of_le (by decide)]
    rw [BitVec.extractLsb'_append_eq_left]

/-- The four fields of a latched FAULT, lowest first. -/
theorem faultWord_fields (cause : Cause) (unit : BlockUnit) (op : Opcode) :
    (faultWord cause unit op).extractLsb' 0 1 = 1#1 ∧ (faultWord cause unit op).extractLsb' 1 4 = causeCode cause ∧
    (faultWord cause unit op).extractLsb' 5 2 = unitCode unit ∧ (faultWord cause unit op).extractLsb' 7 4 = op := by
  unfold faultWord
  refine ⟨?v, ?cause, ?unit, ?op⟩
  case v => rw [BitVec.extractLsb'_append_eq_right]
  case cause => rw [BitVec.extractLsb'_append_eq_of_le (by decide), BitVec.extractLsb'_append_eq_right]
  case unit =>
    iterate 2 rw [BitVec.extractLsb'_append_eq_of_le (by decide)]
    rw [BitVec.extractLsb'_append_eq_right]
  case op =>
    iterate 2 rw [BitVec.extractLsb'_append_eq_of_le (by decide)]
    rw [BitVec.extractLsb'_append_eq_left]

/-- Settles O58: the two words field by field, and the numbers of each code. -/
theorem statusAndFaultFields : Obligations.StatusAndFaultFields := by
  refine ⟨fun s hw hc => ?_, fun cause unit op => ?_⟩
  · obtain ⟨hnb, hmode, hzero, hcnb, hsink, hkind, hfault, hupper⟩ := statusWord_fields s
    refine ⟨by rw [hnb, toNat_countField hw], ?_, hzero, by rw [hcnb, toNat_countField hc], ?_, ?_,
      hfault.trans (ofBool_faultV s), hupper⟩
    · rw [hmode]; cases s.w.mode <;> rfl
    · rw [hsink]; cases s.sink.state <;> rfl
    · rw [hkind]; cases s.cfg.sinkKind <;> rfl
  · obtain ⟨hv, hcause, hunit, hop⟩ := faultWord_fields cause unit op
    refine ⟨hv, ?_, ?_, hop⟩
    · rw [hcause]; cases cause <;> rfl
    · rw [hunit]; cases unit <;> rfl

/-! ### The invariant in parts: W's bits, W's region, C, S, FAULT, what was delivered -/

/-- Rules R32, R33: W's pending bits and their count. -/
structure PendingOk (s : State) : Prop where
  count : s.w.nb ≤ 32
  running : Running s → s.w.nb ≤ 31
  low : s.w.acc <<< s.w.nb = 0#32

/-- Rules R34, R35, R68, R94: the cursor, the reservation and the region of a writer over a sink. -/
structure RegionOk (w : Writer) (k : Sink) : Prop where
  cursor : w.pos ≤ w.rsv
  reservation : w.rsv < 2 ^ 32
  region : w.mode = .active → w.rsv = 0 ∨ k.state = .opened ∧ k.used + w.rsv ≤ k.buf.len
  written : w.mode = .active → k.buf.Known k.used (k.used + w.pos)

/-- Rules R38 to R40. -/
structure CounterOk (c : Counter) : Prop where
  count : c.nb ≤ 31
  low : c.acc <<< c.nb = 0#32
  total : c.total ≤ Config.totalMax

/-- Rules R42 to R45, R72, R85: a sink under its configuration. -/
structure SinkOk (cfg : Config) (k : Sink) : Prop where
  memory : k.buf.wf
  usedFits : k.state ≠ .broken → k.used ≤ k.buf.len
  capacity : cfg.sinkKind = .growable → k.state ≠ .broken → k.buf.len = k.cap
  noCapacity : cfg.sinkKind = .external → k.cap = 0
  trimmed : k.state = .finalized → k.buf.len = k.used
  consumed : k.state = .released → cfg.sinkKind = .growable ∧ k.used = 0 ∧ k.buf = Memory.empty
  committed : k.state ≠ .broken → k.buf.Known 0 k.used
  bounded : cfg.fits cfg.initCapHint = true →
    cfg.fits k.used = true ∧ cfg.fits k.cap = true ∧ (k.state ≠ .broken → cfg.fits k.buf.len = true)

/-- Rules R47, R211: FAULT is 0 or a cause with one of its units. -/
def FaultOk (s : State) : Prop :=
  s.fault = 0#11 ∨ ∃ cause unit op, causeUnit cause unit = true ∧ s.fault = faultWord cause unit op

/-- Rule R133: every delivered buffer is whole. -/
def DeliveredOk (ms : List Memory) : Prop := ∀ m ∈ ms, m.wf ∧ m.Known 0 m.len

theorem inv_iff_parts (s : State) : Inv s ↔ PendingOk s ∧ RegionOk s.w s.sink ∧ CounterOk s.c ∧ SinkOk s.cfg s.sink ∧
    FaultOk s ∧ DeliveredOk s.delivered := by
  constructor
  · intro h
    exact ⟨⟨h.writerCount.1, h.writerCount.2, h.writerLow⟩, ⟨h.cursor, h.reservation, h.region, h.written⟩,
      ⟨h.counterCount, h.counterLow, h.counterTotal⟩, ⟨h.memory, h.usedFits, h.capacity, h.noCapacity, h.trimmed,
      h.consumed, h.committed, h.bounded⟩, h.faultForm, h.deliveredWhole⟩
  · rintro ⟨hp, hr, hc, hk, hf, hd⟩
    exact ⟨⟨hp.count, hp.running⟩, hp.low, hr.cursor, hr.reservation, hr.region, hc.count, hc.low, hc.total, hk.memory,
      hk.usedFits, hk.capacity, hk.noCapacity, hk.trimmed, hk.consumed, hk.committed, hr.written, hk.bounded, hf, hd⟩

section
variable {s : State} (h : Inv s)
include h

theorem Inv.pendingOk : PendingOk s := ((inv_iff_parts s).1 h).1
theorem Inv.regionOk : RegionOk s.w s.sink := ((inv_iff_parts s).1 h).2.1
theorem Inv.counterOk : CounterOk s.c := ((inv_iff_parts s).1 h).2.2.1
theorem Inv.sinkOk : SinkOk s.cfg s.sink := ((inv_iff_parts s).1 h).2.2.2.1
theorem Inv.faultOk : FaultOk s := ((inv_iff_parts s).1 h).2.2.2.2.1
theorem Inv.deliveredOk : DeliveredOk s.delivered := ((inv_iff_parts s).1 h).2.2.2.2.2

end

theorem FaultOk.step {s t : State} (h : FaultOk s) (hf : FaultStep s t) : FaultOk t :=
  hf.elim (fun e => by rw [FaultOk, e]; exact h) .inr

/-- A command that leaves the pending bits keeps them in form, whatever it latches. -/
theorem PendingOk.step {s t : State} (h : PendingOk s) (hacc : t.w.acc = s.w.acc) (hnb : t.w.nb = s.w.nb)
    (hf : FaultStep s t) : PendingOk t where
  count := hnb ▸ h.count
  running := fun hr => hnb ▸ h.running ((running_fault_eq (hf.running hr)).symm.trans hr)
  low := by rw [hacc, hnb, h.low]

/-! ### The two ways a command leaves most of the state alone -/

/-- The invariant after a change of C, RESP and FAULT only, as the counter commands make it (rule R190). -/
theorem Inv.counterStep {s t : State} (h : Inv s) (hframe : CounterFrame s t) (hf : FaultStep s t) (hc : CounterOk t.c) :
    Inv t := by
  refine (inv_iff_parts t).2 ⟨h.pendingOk.step (by rw [hframe.w]) (by rw [hframe.w]) hf, ?_, hc, ?_,
    h.faultOk.step hf, ?_⟩
  · rw [hframe.w, hframe.sink]; exact h.regionOk
  · rw [hframe.cfg, hframe.sink]; exact h.sinkOk
  · rw [hframe.delivered]; exact h.deliveredOk

/-- The invariant after a command that leaves C and the pending bits, once W's region and S are known to be in form: RESERVE,
FINALIZE, SRESET, and every command that ends in a fault before it writes (rules R131, R146, R212). -/
theorem Inv.committingStep {s t : State} (h : Inv s) (hframe : CommittingFrame s t) (hr : RegionOk t.w t.sink)
    (hk : SinkOk s.cfg t.sink) : Inv t := by
  refine (inv_iff_parts t).2 ⟨h.pendingOk.step hframe.acc hframe.nb hframe.fault, hr, ?_, hframe.cfg ▸ hk,
    h.faultOk.step hframe.fault, ?_⟩
  · rw [hframe.c]; exact h.counterOk
  · rw [hframe.delivered]; exact h.deliveredOk

/-- A fault latched by a command touches no other part (rule R212). -/
theorem Inv.latch {s : State} (h : Inv s) {c : Cause} {u : BlockUnit} (hcu : causeUnit c u = true) (op : Opcode) :
    Inv (latchFault c u op s) :=
  h.committingStep (.latch hcu op s) (by simpa using h.regionOk) (by simpa using h.sinkOk)

/-! ### Sinks in form -/

theorem SinkOk.powerOn (cfg : Config) : SinkOk cfg (Sink.powerOn cfg) where
  memory := Memory.unknown_wf _
  usedFits := fun _ => Nat.zero_le _
  capacity := fun _ _ => rfl
  noCapacity := fun hk => by simp [Sink.powerOn, powerOnCap, hk]
  trimmed := fun hs => by cases hs
  consumed := fun hs => by cases hs
  committed := fun _ => Memory.known_nothing _ _
  bounded := fun hb => by
    have hcap : cfg.fits (powerOnCap cfg) = true := by
      refine fits_mono ?_ hb
      unfold powerOnCap
      split <;> omega
    exact ⟨fits_mono (Nat.zero_le _) hcap, hcap, fun _ => hcap⟩

/-- The empty sink of S.Reset, OPEN, and of a delivery, RELEASED on the growable backend (rules R73, R133). -/
theorem SinkOk.emptied {cfg : Config} {st : SinkState} (hfin : st ≠ .finalized)
    (hrel : st = .released → cfg.sinkKind = .growable) :
    SinkOk cfg { state := st, used := 0, cap := 0, buf := Memory.empty } where
  memory := Memory.empty_wf
  usedFits := fun _ => le_rfl
  capacity := fun _ _ => rfl
  noCapacity := fun _ => rfl
  trimmed := fun hs => absurd hs hfin
  consumed := fun hs => ⟨hrel hs, rfl, rfl⟩
  committed := fun _ => Memory.known_nothing _ _
  bounded := fun hb => ⟨fits_mono (Nat.zero_le _) hb, fits_mono (Nat.zero_le _) hb, fun _ => fits_mono (Nat.zero_le _) hb⟩

/-- A BROKEN sink's buffer is any value, so only its canonical form and the sizes matter (rule R84). -/
theorem SinkOk.broken {cfg : Config} {k : Sink} (hst : k.state = .broken) (hm : k.buf.wf)
    (hcap : cfg.sinkKind = .external → k.cap = 0)
    (hb : cfg.fits cfg.initCapHint = true → cfg.fits k.used = true ∧ cfg.fits k.cap = true) : SinkOk cfg k where
  memory := hm
  usedFits := fun hv => absurd hst hv
  capacity := fun _ hv => absurd hst hv
  noCapacity := hcap
  trimmed := fun hs => by rw [hst] at hs; cases hs
  consumed := fun hs => by rw [hst] at hs; cases hs
  committed := fun hv => absurd hst hv
  bounded := fun hi => ⟨(hb hi).1, (hb hi).2, fun hv => absurd hst hv⟩

theorem Memory.eq_empty_of_wf {m : Memory} (h : m.wf) (hl : m.len = 0) : m = Memory.empty := by
  obtain ⟨len, cells⟩ := m
  cases cells with
  | nil => cases hl; rfl
  | cons c cs =>
    have hc : c.1 < len := h.2 c List.mem_cons_self
    have hl : len = 0 := hl
    omega

/-- Emitted bytes lie above S.USED and change no length, so the sink stays in form (rules R65, R94). -/
theorem SinkOk.emitted {s t : State} (h : SinkOk s.cfg s.sink) (hf : WriterFrame s t) (hm : t.sink.buf.wf) :
    SinkOk t.cfg t.sink where
  memory := hm
  usedFits := by rw [hf.sinkState, hf.used, hf.len]; exact h.usedFits
  capacity := by rw [hf.cfg, hf.sinkState, hf.len, hf.cap]; exact h.capacity
  noCapacity := by rw [hf.cfg, hf.cap]; exact h.noCapacity
  trimmed := by rw [hf.sinkState, hf.len, hf.used]; exact h.trimmed
  consumed := fun hs => by
    obtain ⟨hk, hu, hbuf⟩ := h.consumed (hf.sinkState ▸ hs)
    exact ⟨hf.cfg ▸ hk, hf.used.trans hu, Memory.eq_empty_of_wf hm (by rw [hf.len, hbuf]; rfl)⟩
  committed := fun hv a hlo hhi => by
    rw [hf.used] at hhi
    rw [hf.bytes a (.inl (by omega))]
    exact h.committed (hf.sinkState ▸ hv) a hlo hhi
  bounded := by rw [hf.cfg, hf.used, hf.cap, hf.sinkState, hf.len]; exact h.bounded

/-- Commit acknowledges `n` known bytes and leaves an OPEN sink in form (rules R67 to R69, R75, R79). -/
theorem SinkOk.commit {n e : Nat} {s u : State} (h : SinkOk s.cfg s.sink) (ho : s.sink.state = .opened)
    (hknown : s.sink.buf.Known 0 (s.sink.used + n)) (hu : CommitOk n e s u) : SinkOk s.cfg u.sink := by
  have hv : s.sink.state ≠ .broken := by rw [ho]; decide
  have hcap : s.cfg.sinkKind = .growable → s.sink.buf.len = s.sink.cap := fun hk => h.capacity hk hv
  have hkeeps := hu.keeps
  have hgives := hu.gives
  have hopen : u.sink.state = .opened := hkeeps.state.trans ho
  exact
    { memory := hgives.memory h.memory
      usedFits := fun _ => by have := hgives.room hcap; have := hkeeps.used; omega
      capacity := fun hk _ => hgives.capacity hcap hk
      noCapacity := fun hk => (hgives.noCapacity hk).trans (h.noCapacity hk)
      trimmed := fun hs => by rw [hopen] at hs; cases hs
      consumed := fun hs => by rw [hopen] at hs; cases hs
      committed := fun _ a hlo hhi => by
        rw [hkeeps.used] at hhi
        rw [hkeeps.bytes a hhi]
        exact hknown a hlo hhi
      bounded := fun hi => by
        obtain ⟨hneed, hcap', hlen⟩ := hgives.bounded (h.bounded hi).2.1 hcap
        exact ⟨hkeeps.used ▸ fits_mono (Nat.le_add_right _ e) hneed, hcap', fun _ => hlen⟩ }

/-- The room a successful Commit gives (rule R68). -/
theorem SinkOk.commit_room {n e : Nat} {s u : State} (h : SinkOk s.cfg s.sink) (ho : s.sink.state = .opened)
    (hu : CommitOk n e s u) : u.sink.used + e ≤ u.sink.buf.len := by
  rw [hu.keeps.used]
  exact hu.gives.room fun hk => h.capacity hk (by rw [ho]; decide)

/-- A failed Commit has acknowledged bytes that lie in S.BUF, and breaks the sink (rules R71, R84). -/
theorem SinkOk.commitFailed {n : Nat} {s u : State} (h : SinkOk s.cfg s.sink) (ho : s.sink.state = .opened)
    (hfit : s.sink.used + n ≤ s.sink.buf.len) (hu : CommitFail n s u) : SinkOk s.cfg u.sink := by
  have hbreaks := hu.breaks
  refine .broken hbreaks.state ?_ (fun hk => hbreaks.cap.trans (h.noCapacity hk)) fun hi => ?_
  · rw [hbreaks.buf]
    exact Memory.unknown_wf _
  · obtain ⟨_, hcap, hlen⟩ := h.bounded hi
    rw [hbreaks.used, hbreaks.cap]
    exact ⟨fits_mono hfit (hlen (by rw [ho]; decide)), hcap⟩

/-- A failed Finalize breaks the sink (rules R77, R80, R84). -/
theorem SinkOk.breakSink {s : State} (h : SinkOk s.cfg s.sink) : SinkOk s.cfg (breakSink s).sink :=
  .broken rfl (Memory.unknown_wf _) h.noCapacity fun hi => ⟨(h.bounded hi).1, (h.bounded hi).2.1⟩

/-- Finalize leaves exactly the S.USED known bytes (rules R72, R77, R80). -/
theorem SinkOk.trimSink {s : State} (h : SinkOk s.cfg s.sink) (ho : s.sink.state = .opened) :
    SinkOk s.cfg (trimSink s).sink where
  memory := by rw [trimSink_sink_buf]; exact Memory.take_wf _ h.memory
  usedFits := fun _ => by simp
  capacity := fun hk _ => by simp [trimSink_sink_cap, hk]
  noCapacity := fun hk => by simp [trimSink_sink_cap, hk, h.noCapacity hk]
  trimmed := fun _ => by simp
  consumed := fun hs => by simp at hs
  committed := fun _ => by
    rw [trimSink_sink_buf, trimSink_sink_used]
    exact (h.committed (by rw [ho]; decide)).take _ le_rfl
  bounded := fun hi => by
    obtain ⟨hused, hcap, _⟩ := h.bounded hi
    rw [trimSink_sink_buf, trimSink_sink_used, trimSink_sink_cap]
    exact ⟨hused, by split <;> assumption, fun _ => hused⟩

/-! ### Regions in form -/

/-- A writer with no region is in form over every sink (rules R145, R180, R243). -/
theorem RegionOk.none {w : Writer} (hpos : w.pos = 0) (hrsv : w.rsv = 0) (k : Sink) : RegionOk w k where
  cursor := by omega
  reservation := by omega
  region := fun _ => .inl hrsv
  written := fun _ => by rw [hpos]; exact Memory.known_nothing _ _

/-- Of a writer that is not ACTIVE only the two counts are claimed, so the sink may change under it. -/
theorem RegionOk.inactive {w w' : Writer} {k k' : Sink} (h : RegionOk w k) (hpos : w'.pos = w.pos)
    (hrsv : w'.rsv = w.rsv) (hm : w'.mode ≠ .active) : RegionOk w' k' where
  cursor := by rw [hpos, hrsv]; exact h.cursor
  reservation := by rw [hrsv]; exact h.reservation
  region := fun ha => absurd ha hm
  written := fun ha => absurd ha hm

/-- Emitted bytes stay in the reservation and are known up to the new cursor (rule R94). -/
theorem RegionOk.emitted {op : Opcode} {s t : State} (h : RegionOk s.w s.sink) (ho : WriterOutcome op s t) :
    RegionOk t.w t.sink where
  cursor := ho.fits h.cursor
  reservation := by rw [ho.frame.rsv]; exact h.reservation
  region := by
    rw [ho.frame.mode, ho.frame.rsv, ho.frame.sinkState, ho.frame.used, ho.frame.len]
    exact h.region
  written := fun hm => by
    rw [ho.frame.mode] at hm
    rw [ho.frame.used]
    refine Memory.Known.join (mid := s.sink.used + s.w.pos) (fun a hlo hhi => ?_) ho.known
    rw [ho.frame.bytes a (.inl hhi)]
    exact h.written hm a hlo hhi

/-- The bytes up to an active writer's cursor are known and lie in S.BUF, so RESERVE and FINALIZE may acknowledge them. -/
theorem Inv.cursorBytes {s : State} (h : Inv s) (hm : s.w.mode = .active) (ho : s.sink.state = .opened) :
    s.sink.buf.Known 0 (s.sink.used + s.w.pos) ∧ s.sink.used + s.w.pos ≤ s.sink.buf.len := by
  have hv : s.sink.state ≠ .broken := by rw [ho]; decide
  refine ⟨(h.committed hv).join (h.written hm), ?_⟩
  have hpos := h.cursor
  have hused := h.usedFits hv
  rcases h.region hm with hr | ⟨_, hr⟩ <;> omega

/-! ### Every command keeps the invariant -/

theorem exec_emitting_inv {i : Instr} (hi : emittingCommand i = true) {s t : State} (h : Inv s)
    (he : exec i s = .next t) : Inv t := by
  have ho := exec_emitting hi he
  rcases exec_next_cases he with ⟨_, rfl⟩ | ⟨hr, _⟩
  · exact h
  · have hn := h.writerCount.2 hr
    refine (inv_iff_parts t).2 ⟨⟨(ho.count hn).1, (ho.count hn).2, ho.low hn h.writerLow⟩, h.regionOk.emitted ho, ?_,
      h.sinkOk.emitted ho.frame (ho.memory h.memory), h.faultOk.step ho.faultStep, ?_⟩
    · rw [ho.frame.c]; exact h.counterOk
    · rw [ho.frame.delivered]; exact h.deliveredOk

theorem exec_counter_inv {i : Instr} (hi : counterCommand i = true) {s t : State} (h : Inv s)
    (he : exec i s = .next t) : Inv t := by
  by_cases hne : i = .csize
  · subst hne
    rcases exec_csize_cases he with rfl | rfl | ⟨r, rfl⟩
    · exact h
    · exact h.latch rfl _
    · exact h.counterStep ⟨rfl, rfl, rfl, rfl, rfl, rfl⟩ (.inl rfl) h.counterOk
  · have ho := exec_adding hi hne he
    exact h.counterStep ho.frame ho.faultStep
      ⟨ho.count h.counterCount, ho.low h.counterCount h.counterLow, ho.total h.counterTotal⟩

/-- SRESET gives an empty OPEN sink, and no writer over it is ACTIVE (rules R130, R131). -/
theorem exec_sreset_inv {s t : State} (h : Inv s) (he : exec .sreset s = .next t) : Inv t := by
  rcases exec_sreset_cases he with rfl | rfl
  · exact h
  · have hm : (abandonWriter (sinkReset s)).w.mode ≠ .active := by
      rw [abandonWriter_w, sinkReset_w]
      by_cases hm : s.w.mode = .active <;> simp [hm]
    exact h.committingStep ⟨rfl, rfl, rfl, rfl, rfl, rfl, .inl rfl⟩ (h.regionOk.inactive rfl rfl hm)
      (.emptied (by decide) fun hs => by cases hs)

/-- A delivery hands over the FINALIZED bytes whole; an ACTIVE writer over a FINALIZED sink has no region (rule R133). -/
theorem deliver_inv {s : State} (h : Inv s) (hk : s.cfg.sinkKind = .growable) (hfin : s.sink.state = .finalized) :
    Inv (deliver s) := by
  have hv : s.sink.state ≠ .broken := by rw [hfin]; decide
  refine (inv_iff_parts _).2 ⟨h.pendingOk.step rfl rfl (.inl rfl), ?_, h.counterOk, ?_, h.faultOk, fun m hm => ?_⟩
  · by_cases hm : s.w.mode = .active
    · have hrsv : s.w.rsv = 0 := (h.region hm).elim id fun hr => by rw [hfin] at hr; cases hr.1
      exact .none (Nat.le_zero.1 (hrsv ▸ h.cursor)) hrsv _
    · exact h.regionOk.inactive rfl rfl hm
  · exact .emptied (by decide) fun _ => hk
  · rw [deliver_delivered, List.mem_append, List.mem_singleton] at hm
    rcases hm with hm | rfl
    · exact h.deliveredWhole m hm
    · exact ⟨Memory.take_wf _ h.memory, (h.committed hv).take _ le_rfl⟩

theorem exec_srelease_inv {s t : State} (h : Inv s) (he : exec .srelease s = .next t) : Inv t := by
  rcases exec_next_cases he with ⟨_, rfl⟩ | ⟨_, e⟩
  · exact h
  · cases e
    rcases releaseResult_cases s with ⟨hk, hfin, e⟩ | e <;> rw [e]
    · exact deliver_inv h hk hfin
    · exact h.latch rfl _

theorem exec_reserve_inv {size : Word} {s t : State} (h : Inv s) (he : exec (.reserve size) s = .next t) : Inv t := by
  have hl := exec_reserve_leaves he
  have hframe := hl.frame
  cases hl with
  | faulted => exact h
  | inactive => exact h.latch rfl _
  | notOpen => exact h.latch rfl _
  | committed hw ho hu =>
    have hk := h.sinkOk.commit ho (h.cursorBytes hw.2 ho).1 hu
    have hroom := h.sinkOk.commit_room ho hu
    have hopen := hu.keeps.state.trans ho
    exact h.committingStep hframe
      { cursor := Nat.zero_le _
        reservation := size.isLt
        region := fun _ => .inr ⟨hopen, hroom⟩
        written := fun _ => Memory.known_nothing _ _ } hk
  | failed hw ho hu =>
    have hk := h.sinkOk.commitFailed ho (h.cursorBytes hw.2 ho).2 hu
    have hw' := hu.breaks.w
    exact h.committingStep hframe (h.regionOk.inactive (by simp [hw']) (by simp [hw']) (by simp)) hk

theorem exec_finalize_inv {s t : State} (h : Inv s) (he : exec .finalize s = .next t) : Inv t := by
  have hl := exec_finalize_leaves he
  have hframe := hl.frame
  cases hl with
  | faulted => exact h
  | inactive => exact h.latch rfl _
  | notOpen => exact h.latch rfl _
  | commitFailed hw ho hu =>
    have hk := h.sinkOk.commitFailed ho (h.cursorBytes hw.2 ho).2 hu
    have hw' := hu.breaks.w
    exact h.committingStep hframe (h.regionOk.inactive (by simp [hw']) (by simp [hw']) (by simp)) hk
  | @trimmed hw ho u hu ha =>
    have hk := h.sinkOk.commit ho (h.cursorBytes hw.2 ho).1 hu
    rw [← hu.keeps.cfg] at hk
    have htrim := SinkOk.trimSink (s := (closeRegion u).withDraw) hk (hu.keeps.state.trans ho)
    exact h.committingStep hframe (.none (by simp) (by simp) _) (hu.keeps.cfg ▸ htrim)
  | @trimFailed hw ho u hu ha =>
    have hk := h.sinkOk.commit ho (h.cursorBytes hw.2 ho).1 hu
    rw [← hu.keeps.cfg] at hk
    have hbreak := SinkOk.breakSink (s := (closeRegion u).withDraw) hk
    exact h.committingStep hframe (.none rfl rfl _) (hu.keeps.cfg ▸ hbreak)

/-- Every command keeps the invariant, family by family. -/
theorem exec_inv {i : Instr} {s t : State} (h : Inv s) (he : exec i s = .next t) : Inv t := by
  rcases command_families i with hi | hi | rfl | rfl | ⟨size, rfl⟩ | rfl
  · exact exec_emitting_inv hi h he
  · exact exec_counter_inv hi h he
  · exact exec_sreset_inv h he
  · exact exec_srelease_inv h he
  · exact exec_reserve_inv h he
  · exact exec_finalize_inv h he

/-! ### Every event keeps the invariant (rules R240 to R244) -/

theorem pendingOk_fresh {s : State} (h : s.w = Writer.fresh) : PendingOk s := by
  constructor <;> simp [h, Writer.fresh]

theorem counterOk_fresh : CounterOk Counter.fresh := by
  constructor <;> simp [Counter.fresh]

/-- The power-on reset gives the state right after power-on but for what lies outside the block (rule R240). -/
theorem powerOnReset_inv (cfg : Config) {s : State} (h : DeliveredOk s.delivered) : Inv (powerOnReset cfg s) :=
  (inv_iff_parts _).2 ⟨pendingOk_fresh rfl, .none rfl rfl _, counterOk_fresh, .powerOn cfg, .inl rfl, h⟩

/-- Settles O50: power-on is `powerOnReset_inv` with nothing delivered, and the reset state is one power-on state. -/
theorem powerOnMeetsInvariant : Obligations.PowerOnMeetsInvariant := by
  have powerOn : ∀ cfg, Inv (State.powerOn cfg) := fun cfg =>
    powerOnReset_inv cfg (s := State.powerOn cfg) fun m hm => by cases hm
  exact ⟨powerOn, powerOn Config.board⟩

theorem constructWriter_inv {s : State} (h : Inv s) : Inv (constructWriter s) := by
  unfold constructWriter
  split
  · exact h
  · exact (inv_iff_parts _).2 ⟨pendingOk_fresh rfl, .none rfl rfl _, h.counterOk, h.sinkOk, h.faultOk, h.deliveredOk⟩

theorem constructCounter_inv {s : State} (h : Inv s) : Inv (constructCounter s) := by
  unfold constructCounter
  split
  · exact h
  · exact h.counterStep ⟨rfl, rfl, rfl, rfl, rfl, rfl⟩ (.inl rfl) counterOk_fresh

theorem runCommand_inv {w : CmdWord} {p : List Byte} {s t : State} (h : Inv s) (he : runCommand w p s = .next t) :
    Inv t := by
  cases hd : decode w p with
  | ok i => exact exec_inv h ((runCommand_decoded hd s).symm.trans he)
  | error r =>
    rw [runCommand_rejected hd] at he
    cases he
    exact h.latch rfl _

theorem runEvent_inv {e : Event} {s t : State} (h : Inv s) (he : runEvent e s = .next t) : Inv t := by
  cases e with
  | command w p => exact runCommand_inv h he
  | rstAll cfg =>
    cases he
    exact powerOnReset_inv cfg h.deliveredOk
  | rstW =>
    cases he
    exact constructWriter_inv h
  | rstC =>
    cases he
    exact constructCounter_inv h

/-- No part of the invariant reads the port. -/
theorem Inv.withPort {s : State} (h : Inv s) (port : List Event) : Inv (s.withPort port) :=
  (inv_iff_parts _).2
    ⟨h.pendingOk.step rfl rfl (.inl rfl), h.regionOk, h.counterOk, h.sinkOk, h.faultOk, h.deliveredOk⟩

/-- Settles O51: a step waits or performs the first event of the port, and `runEvent_inv` covers the four events. -/
theorem stepKeepsInvariant : Obligations.StepKeepsInvariant := by
  intro s t h he
  cases hp : s.port with
  | nil =>
    rw [step_idle hp] at he
    cases he
    exact h
  | cons e rest =>
    rw [step_event hp] at he
    exact runEvent_inv (h.withPort rest) he

end Sys2Proof.Machine

/-! PROOFS. The family of 20_memory.md: what the byte array reads after a write, a trim and a resize (O60), the sink view (O59),
RESERVE (O18 to O20, O22, O23), FINALIZE (O22 to O25), the oracle's draws (O55), the raw bytes (O35, O36, O38), and the flushes
that the reservation stops (O39, O40). -/

namespace Sys2Proof.Machine

/-! ### Reading the byte array (rules R62, R65) -/

theorem Memory.read_write (m : Memory) (addr : Nat) (b : Byte) (a : Nat) :
    (m.write addr b).read a = if a = addr then some b else m.read a := by
  split
  · subst a; exact Memory.read_write_same m addr b
  · rename_i hne; exact Memory.read_write_other m hne b

theorem Memory.read_writeList (m : Memory) (addr : Nat) (bs : List Byte) (a : Nat) :
    (m.writeList addr bs).read a = if addr ≤ a ∧ a < addr + bs.length then bs[a - addr]? else m.read a := by
  split
  · rename_i hin
    obtain ⟨k, rfl⟩ := Nat.exists_eq_add_of_le hin.1
    rw [Memory.read_writeList_getElem m addr bs (by omega), Nat.add_sub_cancel_left]
  · exact Memory.read_writeList_outside m bs (by omega)

/-- Settles O60: one read law for each operation on the byte array. -/
theorem outputBytesReadBack : Obligations.OutputBytesReadBack :=
  ⟨fun m addr b a => ⟨m.len_write addr b, m.read_write addr b a⟩,
    fun m addr bs a => ⟨m.len_writeList addr bs, m.read_writeList addr bs a⟩,
    fun m used len a => ⟨m.len_take used, m.read_take used a, m.len_regrow used len, m.read_regrow used len a⟩⟩

/-! ### The sink view (rule R86) -/

theorem sinkView_growable {s : State} (ho : s.sink.state = .opened) (hk : s.cfg.sinkKind = .growable) :
    sinkView s = some (s.sink.buf.take s.sink.used) := by rw [sinkView, ho, hk]

theorem sinkView_external {s : State} (ho : s.sink.state = .opened) (hk : s.cfg.sinkKind = .external) :
    sinkView s = some s.sink.buf := by rw [sinkView, ho, hk]

theorem sinkView_finalized {s : State} (h : s.sink.state = .finalized) : sinkView s = some s.sink.buf := by
  rw [sinkView, h]

theorem sinkView_released {s : State} (h : s.sink.state = .released) : sinkView s = some Memory.empty := by
  rw [sinkView, h]

theorem sinkView_broken {s : State} (h : s.sink.state = .broken) : sinkView s = none := by rw [sinkView, h]

/-- Settles O59: the view of each sink state; that a FINALIZED sink holds its S.USED known bytes and no others is the invariant. -/
theorem sinkViewShowsStream : Obligations.SinkViewShowsStream := by
  intro s hinv
  refine ⟨fun ho hk => ⟨_, sinkView_growable ho hk, rfl, Memory.read_take _ _⟩, sinkView_external, fun hfin => ?_,
    sinkView_released, sinkView_broken⟩
  have hv : s.sink.state ≠ .broken := by rw [hfin]; decide
  exact ⟨sinkView_finalized hfin, hinv.trimmed hfin, fun a ha => hinv.committed hv a (Nat.zero_le a) ha⟩

/-! ### RESERVE over an OPEN sink (rules R75, R79, R145) -/

theorem exec_reserve_fits {s : State} {size : Word} (hw : WriterReady s) (ho : s.sink.state = .opened)
    (hk : s.cfg.sinkKind = .growable) (hfit : s.sink.used + s.w.pos + size.toNat ≤ s.sink.cap) :
    exec (.reserve size) s = .next
      { acknowledge s.w.pos s with w := { s.w with pos := 0, rsv := size.toNat }, resp := 1#64 } := by
  rw [exec_reserve hw, sinkCommit_fits ho hk _ _ _ hfit]; rfl

/-- RESERVE where its Commit asks the oracle, for either backend's way `g` of changing the buffer. -/
theorem exec_reserve_draw {s : State} {size : Word} (hw : WriterReady s) {g : State → State}
    (hc : sinkCommit 0x3#4 s.w.pos size.toNat s = drawReply (acknowledge s.w.pos s) g) :
    exec (.reserve size) s = .next (
      if oracleAnswer s.oracle then
        { g (acknowledgedDraw s.w.pos s) with
          w := { (g (acknowledgedDraw s.w.pos s)).w with pos := 0, rsv := size.toNat }, resp := 1#64 }
      else
        { breakSink (acknowledgedDraw s.w.pos s) with w := { s.w with mode := .failed }, resp := 0#64 }) := by
  rw [exec_reserve hw, hc]
  cases ha : oracleAnswer s.oracle
  · rw [drawReply_fail (s := acknowledge s.w.pos s) ha]; rfl
  · rw [drawReply_ok (s := acknowledge s.w.pos s) ha]; rfl

/-- Settles O18: the need is within S.CAP, so Commit only acknowledges. -/
theorem reserveWithinCapacity : Obligations.ReserveWithinCapacity := fun _ _ hw ho hk hfit =>
  exec_reserve_fits hw ho hk hfit

/-- Settles O19: `exec_reserve_draw` with the growth to max(2 · S.CAP, need). -/
theorem reserveGrowsBuffer : Obligations.ReserveGrowsBuffer := fun _ _ hw ho hk hcap hm =>
  exec_reserve_draw hw (sinkCommit_grows ho hk _ _ _ hcap hm)

/-- Settles O20: `exec_reserve_draw` with the resize to exactly the need. -/
theorem reserveResizesContainer : Obligations.ReserveResizesContainer := fun _ _ hw ho hk hm =>
  exec_reserve_draw hw (sinkCommit_resizes ho hk _ _ _ hm)

/-- Settles O22: on a sink that is not OPEN Commit raises before it acknowledges anything. -/
theorem closedSinkFaults : Obligations.ClosedSinkFaults := by
  intro s hw hn
  refine ⟨fun size => ?_, ?_⟩
  · rw [exec_reserve hw, sinkCommit_notOpen hn, latchFault_fault hw.1]; rfl
  · rw [exec_finalize hw, sinkCommit_notOpen hn, latchFault_fault hw.1]; rfl

/-! ### FINALIZE over an OPEN sink (rules R77, R80, R180) -/

theorem trimSink_growable {s : State} (hk : s.cfg.sinkKind = .growable) :
    trimSink s = { s with
      sink := { state := .finalized, used := s.sink.used, cap := s.sink.used, buf := s.sink.buf.take s.sink.used } } := by
  rw [trimSink, hk]

theorem trimSink_external {s : State} (hk : s.cfg.sinkKind = .external) :
    trimSink s = { s with
      sink := { s.sink with state := .finalized, buf := s.sink.buf.take s.sink.used } } := by
  rw [trimSink, hk]

/-- FINALIZE once its Commit has left `u`: the region is given up, then Finalize draws. -/
theorem exec_finalize_committed {s u : State} (hw : WriterReady s)
    (hc : sinkCommit 0xA#4 s.w.pos 0 s = { verdict := .ok, state := u }) (ho : u.sink.state = .opened) :
    exec .finalize s = .next (
      if oracleAnswer u.oracle then finishWriter true (trimSink (closeRegion u).withDraw)
      else finishWriter false (breakSink (closeRegion u).withDraw)) := by
  rw [exec_finalize hw, hc]
  show Host.Outcome.next (finalizeResult (sinkFinalize 0xA#4 (closeRegion u))) = _
  rcases sinkFinalize_cases (s := closeRegion u) ho 0xA#4 with ⟨ha, e⟩ | ⟨ha, e⟩
  · rw [e, if_pos (show oracleAnswer u.oracle = true from ha)]; rfl
  · rw [e, if_neg (by simpa using ha)]; rfl

/-- The need of FINALIZE's Commit is within S.CAP: the written bytes lie in S.BUF, whose length is S.CAP (rules R45, R68). -/
theorem Inv.cursor_le_cap {s : State} (h : Inv s) (hm : s.w.mode = .active) (ho : s.sink.state = .opened)
    (hk : s.cfg.sinkKind = .growable) : s.sink.used + s.w.pos ≤ s.sink.cap := by
  rw [← h.capacity hk (by rw [ho]; decide)]
  exact (h.cursorBytes hm ho).2

/-- Settles O24: the Commit fits, so the only draw is Finalize's. -/
theorem finalizeTrimsGrowable : Obligations.FinalizeTrimsGrowable := by
  intro s hinv hw ho hk
  have hc := sinkCommit_fits ho hk 0xA#4 s.w.pos 0 (hinv.cursor_le_cap hw.2 ho hk)
  rw [exec_finalize_committed hw hc ho, trimSink_growable (s := (closeRegion (acknowledge s.w.pos s)).withDraw) hk]
  rfl

/-- Settles O25: the Commit's resize draws first, and where it is granted Finalize's truncation draws again. -/
theorem finalizeTruncatesContainer : Obligations.FinalizeTruncatesContainer := by
  intro s hw ho hk hm
  have hc := sinkCommit_resizes ho hk 0xA#4 s.w.pos 0 hm
  cases ha : oracleAnswer s.oracle with
  | false =>
    rw [drawReply_fail (s := acknowledge s.w.pos s) ha] at hc
    rw [exec_finalize hw, hc]
    exact ⟨_, rfl, rfl, nofun, nofun, fun _ => ⟨rfl, rfl, rfl, rfl, rfl⟩⟩
  | true =>
    rw [drawReply_ok (s := acknowledge s.w.pos s) ha] at hc
    have hrun := exec_finalize_committed hw hc ho
    rw [trimSink_external (s := (closeRegion (resizeTo _ (acknowledgedDraw s.w.pos s))).withDraw) hk] at hrun
    cases hb : oracleAnswer (oracleNext s.oracle) with
    | false =>
      exact ⟨_, hrun.trans (congrArg _ (if_neg (ne_true_of_eq_false hb))), rfl, nofun,
        fun _ _ => ⟨rfl, rfl, rfl, rfl, rfl⟩, nofun⟩
    | true => exact ⟨_, hrun.trans (congrArg _ (if_pos hb)), rfl, fun _ _ => rfl, nofun, nofun⟩

/-! ### Where RESERVE and FINALIZE succeed (rules R68, R69, R83) -/

/-- A RESERVE that leaves an OPEN sink's writer ACTIVE has committed. -/
theorem exec_reserve_succeeded {size : Word} {s t : State} (hw : WriterReady s) (ho : s.sink.state = .opened)
    (h : exec (.reserve size) s = .next t) (hm : t.w.mode = .active) :
    ∃ u, CommitOk s.w.pos size.toNat s u ∧ t.sink = u.sink ∧ t.oracle = u.oracle := by
  cases exec_reserve_leaves h with
  | faulted hf => rw [hw.1] at hf; cases hf
  | inactive _ hn => exact absurd hw.2 hn
  | notOpen _ hn => exact absurd ho hn
  | committed _ _ hu => exact ⟨_, hu, rfl, rfl⟩
  | failed _ _ hu => cases hm

/-- A FINALIZE that leaves an OPEN sink FINALIZED has committed, drawn once more and trimmed. -/
theorem exec_finalize_succeeded {s t : State} (hw : WriterReady s) (ho : s.sink.state = .opened)
    (h : exec .finalize s = .next t) (hfin : t.sink.state = .finalized) :
    ∃ u, CommitOk s.w.pos 0 s u ∧ t = finishWriter true (trimSink (closeRegion u).withDraw) := by
  cases exec_finalize_leaves h with
  | faulted hf => rw [hw.1] at hf; cases hf
  | inactive _ hn => exact absurd hw.2 hn
  | notOpen _ hn => exact absurd ho hn
  | commitFailed _ _ hu => rw [finishWriter_sink, hu.breaks.state] at hfin; cases hfin
  | trimmed _ _ hu => exact ⟨_, hu, rfl⟩
  | trimFailed => cases hfin

/-- Settles O23: a successful Commit keeps the bytes it acknowledges and gives the room asked for, and the trim of Finalize cuts
above them. -/
theorem commitKeepsCommittedBytes : Obligations.CommitKeepsCommittedBytes := by
  intro s t hinv hw ho
  constructor
  · intro size h hm
    obtain ⟨u, hu, hsink, -⟩ := exec_reserve_succeeded hw ho h hm
    have hroom := hinv.sinkOk.commit_room ho hu
    rw [hsink]
    exact ⟨hu.keeps.used, fun a ha => hu.keeps.bytes a (hu.keeps.used ▸ ha), hroom⟩
  · intro h hfin
    obtain ⟨u, hu, rfl⟩ := exec_finalize_succeeded hw ho h hfin
    have hused : (finishWriter true (trimSink (closeRegion u).withDraw)).sink.used = s.sink.used + s.w.pos := by
      simpa using hu.keeps.used
    refine ⟨hused, fun a ha => ?_⟩
    rw [hused] at ha
    have hcut : a < (closeRegion u).withDraw.sink.used := lt_of_lt_of_eq ha hu.keeps.used.symm
    rw [finishWriter_sink, trimSink_sink_buf, Memory.read_take, if_pos hcut]
    exact hu.keeps.bytes a ha

/-- A successful Commit draws once, but for the growable one that fits, which does not draw. -/
theorem CommitOk.oracle {n e : Nat} {s u : State} (h : CommitOk n e s u) :
    u.oracle = if s.cfg.sinkKind = .growable ∧ s.sink.used + n + e ≤ s.sink.cap then s.oracle else oracleNext s.oracle := by
  cases h with
  | fits hk h => exact (if_pos ⟨hk, h⟩).symm
  | grows _ h => exact (if_neg fun hc => absurd hc.2 (by omega)).symm
  | resizes hk => exact (if_neg fun hc => by rw [hk] at hc; cases hc.1).symm

theorem exec_oracle {i : Instr} (hf : i ≠ .finalize) (hr : ∀ size, i ≠ .reserve size) {s t : State}
    (h : exec i s = .next t) : t.oracle = s.oracle := by
  rcases command_families i with hi | hi | rfl | rfl | ⟨size, rfl⟩ | rfl
  · exact (exec_emitting hi h).frame.oracle
  · exact (exec_counter_frame hi h).oracle
  · rcases exec_sreset_cases h with rfl | rfl <;> rfl
  · rcases exec_srelease_cases h with rfl | rfl | rfl <;> simp
  · exact absurd rfl (hr size)
  · exact absurd rfl hf

/-- Settles O55: `exec_oracle` for the commands that ask nothing, `CommitOk.oracle` for the two that commit; Finalize adds one
draw to its Commit's. -/
theorem oracleDrawnExactly : Obligations.OracleDrawnExactly := by
  intro i s t hinv hw ho h
  refine ⟨fun hf hr => exec_oracle hf hr h, ?fits, ?grows, ?resizes, ?finalize⟩
  case fits =>
    rintro size rfl hk hfit
    rw [exec_reserve_fits hw ho hk hfit] at h
    cases h
    rfl
  case grows =>
    rintro size rfl hk hcap hm
    obtain ⟨u, hu, -, horacle⟩ := exec_reserve_succeeded hw ho h hm
    rw [horacle, hu.oracle, if_neg (by omega)]
    rfl
  case resizes =>
    rintro size rfl hk hm
    obtain ⟨u, hu, -, horacle⟩ := exec_reserve_succeeded hw ho h hm
    rw [horacle, hu.oracle, if_neg (by simp [hk])]
    rfl
  case finalize =>
    rintro rfl hfin
    obtain ⟨u, hu, rfl⟩ := exec_finalize_succeeded hw ho h hfin
    rw [finishWriter_oracle, trimSink_oracle, State.withDraw_oracle, closeRegion_oracle, hu.oracle]
    cases hk : s.cfg.sinkKind with
    | growable => rw [if_pos ⟨rfl, hinv.cursor_le_cap hw.2 ho hk⟩]; rfl
    | external => rfl

/-! ### Raw bytes (rules R94, R160, R165) -/

/-- Settles O35: with room, the store writes the byte as it is. -/
theorem putByteStoresRaw : Obligations.PutByteStoresRaw := by
  intro s b hw hidle hroom
  rw [exec_putByte hw hidle, emitByte_room hroom]
  rfl

/-- Settles O36: with room, the stores write the payload in order. -/
theorem putBytesStoresRaw : Obligations.PutBytesStoresRaw := by
  intro s size p hp hw hidle hroom
  rw [exec_putBytes hw hidle hp, emitRaw_room _ hroom]
  rfl

/-! ### Writes that the reservation stops (rules R94, R212) -/

/-- `s` stopped by OVERRUN while it wrote `bs`: the bytes that fit are written, the reservation is used up, and the accumulator
is the one given. -/
def State.overrun (s : State) (op : Opcode) (bs : List Byte) (acc : Word) (nb : Nat) : State :=
  { s with
    sink := { s.sink with buf := s.sink.buf.writeList (s.sink.used + s.w.pos) (bs.take (s.w.rsv - s.w.pos)) }
    w := { s.w with acc := acc, nb := nb, pos := s.w.rsv }
    fault := faultWord .overrun .writer op }

/-- Raising OVERRUN after the bytes that fit gives `State.overrun`: they end where the reservation does. -/
theorem latchFault_overrun {s : State} (hr : Running s) (hp : s.w.pos ≤ s.w.rsv) (op : Opcode) {bs : List Byte}
    (ho : s.w.rsv - s.w.pos < bs.length) (acc : Word) (nb : Nat) :
    latchFault .overrun .writer op ((s.withOutput (bs.take (s.w.rsv - s.w.pos))).withBits acc nb) =
      s.overrun op bs acc nb := by
  have hend : s.w.pos + (bs.take (s.w.rsv - s.w.pos)).length = s.w.rsv := by rw [List.length_take]; omega
  rw [latchFault_fault (s := (s.withOutput _).withBits acc nb) hr, State.withOutput, hend]
  rfl

/-- Settles O38: the first byte that does not fit raises OVERRUN, and the region of the invariant has room for those before. -/
theorem rawOverrunKeepsEarlierBytes : Obligations.RawOverrunKeepsEarlierBytes := by
  intro s hinv hw hidle
  refine ⟨fun hfull b => ?_, fun size p hp hover => ?_⟩
  · rw [exec_putByte hw hidle, emitByte_overrun hfull.ge, raise, latchFault_fault hw.1]
    rfl
  · have hpos := hinv.cursor
    have hlong : s.w.rsv - s.w.pos < p.length := by omega
    rw [exec_putBytes hw hidle hp, emitRaw_overrun _ (hinv.regionInside hw.2) hpos hlong]
    exact congrArg Host.Outcome.next (latchFault_overrun hw.1 hpos _ hlong s.w.acc s.w.nb)

/-- FlushBytes of a running block past the reservation, as one state. -/
theorem flushBytes_ended {s : State} (hr : Running s) (hreg : RegionInside s) (hp : s.w.pos ≤ s.w.rsv) (op : Opcode)
    (ho : s.w.rsv < s.w.pos + (flushOutput s.w.acc (s.w.nb / 8)).length) :
    ∃ j, j < s.w.nb / 8 ∧ (flushOutput s.w.acc j).length ≤ s.w.rsv - s.w.pos ∧
      s.w.rsv - s.w.pos < (flushOutput s.w.acc (j + 1)).length ∧
      flushBytes op s = .ended
        (s.overrun op (flushOutput s.w.acc (s.w.nb / 8)) (s.w.acc <<< (8 * j)) (s.w.nb - 8 * j)) := by
  have hlong : s.w.rsv - s.w.pos < (flushOutput s.w.acc (s.w.nb / 8)).length := by omega
  obtain ⟨j, hj, hfits, hstops, hrun⟩ := flushBytes_overrun op hreg hp hlong
  exact ⟨j, hj, hfits, hstops, by rw [hrun, raise, latchFault_overrun hr hp op hlong]⟩

/-- Where the flush of FLUSHBITS or of a code has ended early, so has the command. -/
theorem exec_flush_ended {i : Instr} {s u : State} (hw : WriterReady s)
    (hi : i = .flushBits ∨ ∃ v n, codeOperands i = some (.writer, v, n) ∧ CodeOk v n)
    (h : flushBytes (opcodeOf i) s = .ended u) : exec i s = .next u := by
  rcases hi with rfl | ⟨v, n, hc, hv⟩
  · rw [exec_flushBits hw]
    exact congrArg Run.outcome h
  · rw [exec_putCode hc, whenRunning_running hw.1, putCode_ok hw.2 hv, h]
    rfl

/-- Settles O39: a flush that has ended appends nothing, so `flushBytes_ended` is the whole command. -/
theorem flushOverrunKeepsEarlierBytes : Obligations.FlushOverrunKeepsEarlierBytes := by
  intro i s hinv hw hi hover
  obtain ⟨j, hj, hfits, hstops, hend⟩ :=
    flushBytes_ended hw.1 (hinv.regionInside hw.2) hinv.cursor (opcodeOf i) hover
  exact ⟨j, hj, hfits, hstops, exec_flush_ended hw hi hend⟩

/-- Settles O40: FLUSH is `flushBytes_ended` on the padded accumulator, which has the same region and cursor. -/
theorem paddedOverrunKeepsEarlierBytes : Obligations.PaddedOverrunKeepsEarlierBytes := by
  rintro s pad acc hinv hw rfl rfl hover
  have hpad := padOnes_padCount s.w.acc s.w.nb
  rw [← show padCount s.w.nb = (8 - s.w.nb % 8) % 8 from rfl, ← hpad] at hover ⊢
  obtain ⟨j, hj, hfits, hstops, hend⟩ :=
    flushBytes_ended (s := padBits s) hw.1 (hinv.regionInside hw.2) hinv.cursor 0x9#4 hover
  refine ⟨j, hj, hfits, hstops, ?_⟩
  rw [exec_flush hw, hend]
  rfl

end Sys2Proof.Machine

/-! PROOFS. The family of 30_encoding.md: decoding and encoding are inverse (O1, O2), the spec's words (O3), exactly which words
the decoder refuses (O4), and what the block does with a refused word (O5, O6, O7). -/

namespace Sys2Proof

/-! ### The formats (rules R102, R104, R105) -/

theorem formatOf_eq_none_iff (op : Opcode) : formatOf op = none ↔ op ∈ [0x0#4, 0xE#4, 0xF#4] := by
  revert op; decide

theorem formatOf_eq_f0_iff (op : Opcode) :
    formatOf op = some .f0 ↔ op ∈ [0x1#4, 0x2#4, 0x5#4, 0x9#4, 0xA#4, 0xD#4] := by
  revert op; decide

theorem formatOf_eq_fa_iff (op : Opcode) : formatOf op = some .fa ↔ op ∈ [0x3#4, 0x7#4, 0x8#4, 0xC#4] := by
  revert op; decide

theorem formatOf_eq_fb_iff (op : Opcode) : formatOf op = some .fb ↔ op = 0x6#4 := by
  revert op; decide

theorem operandsOk_f0_iff (n : BitVec 8) (a : Word) : operandsOk .f0 n a = true ↔ n = 0#8 ∧ a = 0#32 := by
  simp [operandsOk]

theorem operandsOk_fa_iff (n : BitVec 8) (a : Word) : operandsOk .fa n a = true ↔ n = 0#8 := by
  simp [operandsOk]

theorem operandsOk_fb_iff (n : BitVec 8) (a : Word) : operandsOk .fb n a = true ↔ n = 0#8 ∧ upperField a = 0#24 := by
  simp [operandsOk]

/-- The words whose operand fields fail their format's check, as rule R102 lists them. -/
theorem operandsOk_fails_iff (op : Opcode) (n : BitVec 8) (a : Word) :
    (∃ f, formatOf op = some f ∧ ¬ operandsOk f n a = true) ↔
      (op ∈ [0x1#4, 0x2#4, 0x5#4, 0x9#4, 0xA#4, 0xD#4] ∧ (n ≠ 0#8 ∨ a ≠ 0#32)) ∨
      (op ∈ [0x3#4, 0x7#4, 0x8#4, 0xC#4] ∧ n ≠ 0#8) ∨
      (op = 0x6#4 ∧ (n ≠ 0#8 ∨ 256 ≤ a.toNat)) := by
  rw [← formatOf_eq_f0_iff, ← formatOf_eq_fa_iff, ← formatOf_eq_fb_iff, ← Nat.not_lt, ← upperField_eq_zero_iff,
    ← not_and_or, ← not_and_or, ← operandsOk_f0_iff, ← operandsOk_fb_iff, ne_eq, ← operandsOk_fa_iff n a]
  constructor
  · rintro ⟨f, hf, hbad⟩
    cases f with
    | f0 => exact .inl ⟨hf, hbad⟩
    | fa => exact .inr (.inl ⟨hf, hbad⟩)
    | fb => exact .inr (.inr ⟨hf, hbad⟩)
    | fn => exact absurd rfl hbad
  · rintro (h | h | h)
    · exact ⟨_, h⟩
    · exact ⟨_, h⟩
    · exact ⟨_, h⟩

/-! ### From the fields to the command (rules R103, R104, R109) -/

/-- With an opcode that is not reserved, `assemble` refuses a PUTBYTES of the wrong length and nothing else; what it answers is a
command of that opcode. -/
theorem assemble_cases {op : Opcode} {f : Format} (hf : formatOf op = some f) (n : BitVec 8) (a : Word) (p : List Byte) :
    (op = 0x7#4 ∧ p.length ≠ a.toNat) ∧ assemble op n a p = .error .payloadLength ∨
      ¬ (op = 0x7#4 ∧ p.length ≠ a.toNat) ∧ ∃ i, assemble op n a p = .ok i ∧ opcodeOf i = op := by
  have hop {k : Nat} (h : op.toNat = k) : op = BitVec.ofNat 4 k := by rw [← h, BitVec.ofNat_toNat, BitVec.setWidth_eq]
  unfold assemble
  split
  -- `h_7` is PUTBYTES and `h_14` the reserved opcodes; no other arm reads the payload.
  case h_7 h =>
    split
    case isTrue hlen => exact .inr ⟨fun hbad => hbad.2 (by simpa using hlen), _, rfl, (hop h).symm⟩
    case isFalse hlen => exact .inl ⟨⟨hop h, by simpa using hlen⟩, rfl⟩
  case h_14 =>
    unfold formatOf at hf
    split at hf <;> contradiction
  all_goals
    rename_i h
    refine .inr ⟨fun ⟨h7, _⟩ => ?_, _, rfl, (hop h).symm⟩
    subst h7
    cases h

theorem assemble_refuses_iff {op : Opcode} {f : Format} (hf : formatOf op = some f) (n : BitVec 8) (a : Word) (p : List Byte) :
    (∃ r, assemble op n a p = .error r) ↔ op = 0x7#4 ∧ p.length ≠ a.toNat := by
  rcases assemble_cases hf n a p with ⟨hbad, he⟩ | ⟨hgood, i, he, _⟩
  · exact iff_of_true ⟨_, he⟩ hbad
  · refine iff_of_false (fun ⟨r, hr⟩ => ?_) hgood
    cases he.symm.trans hr

/-- The operand fields of every command meet its format (rule R102). -/
theorem operandsOk_fields (i : Instr) : ∃ f, formatOf (opcodeOf i) = some f ∧ operandsOk f (nOf i) (aOf i) = true := by
  cases i with
  | sreset | srelease | flushBits | flush | finalize | csize => exact ⟨.f0, rfl, rfl⟩
  | reserve | putBytes | putPackedCode | caddPackedCode => exact ⟨.fa, rfl, rfl⟩
  | putByte value => exact ⟨.fb, rfl, (operandsOk_fb_iff _ _).2 ⟨rfl, upperField_setWidth value⟩⟩
  | putBits | caddBits => exact ⟨.fn, rfl, rfl⟩

/-- From its own fields and payload a well-formed command is assembled. -/
theorem assemble_fields {i : Instr} (h : i.WellFormed) :
    assemble (opcodeOf i) (nOf i) (aOf i) (payloadOf i) = .ok i := by
  cases i with
  | putByte value => exact congrArg (fun b => Except.ok (Instr.putByte b)) (byteField_setWidth value)
  | putBytes size payload => exact if_pos h
  | _ => rfl

/-- A PUTBYTES is assembled only from its own size and payload, which agree (rule R109). -/
theorem assemble_putBytes_ok {n : BitVec 8} {a size : Word} {p payload : List Byte}
    (h : assemble 0x7#4 n a p = .ok (.putBytes size payload)) : size = a ∧ payload = p ∧ p.length = a.toNat := by
  rcases assemble_cases (op := 0x7#4) (f := .fa) rfl n a p with ⟨_, he⟩ | ⟨hlen, _⟩
  · rw [he] at h
    cases h
  · have hlen : p.length = a.toNat := not_not.1 fun hne => hlen ⟨rfl, hne⟩
    rw [show assemble 0x7#4 n a p = .ok (.putBytes a p) from if_pos (beq_iff_eq.2 hlen)] at h
    cases h
    exact ⟨rfl, rfl, hlen⟩

/-- What is assembled from fields that meet the format has those fields. -/
theorem fields_of_assemble {i : Instr} {f : Format} {n : BitVec 8} {a : Word} {p : List Byte}
    (hf : formatOf (opcodeOf i) = some f) (ho : operandsOk f n a = true)
    (h : assemble (opcodeOf i) n a p = .ok i) : nOf i = n ∧ aOf i = a := by
  cases i with
  | sreset | srelease | flushBits | flush | finalize | csize =>
    cases hf
    obtain ⟨rfl, rfl⟩ := (operandsOk_f0_iff n a).1 ho
    exact ⟨rfl, rfl⟩
  | reserve | putPackedCode | caddPackedCode =>
    cases hf
    cases h
    exact ⟨((operandsOk_fa_iff n a).1 ho).symm, rfl⟩
  | putBytes =>
    cases hf
    exact ⟨((operandsOk_fa_iff n a).1 ho).symm, (assemble_putBytes_ok h).1⟩
  | putByte =>
    cases hf
    cases h
    obtain ⟨rfl, hupper⟩ := (operandsOk_fb_iff n a).1 ho
    exact ⟨rfl, setWidth_byteField hupper⟩
  | putBits | caddBits =>
    cases h
    exact ⟨rfl, rfl⟩

/-- What is assembled is well-formed, and carries no other payload than the one given (rule R109). -/
theorem wellFormed_of_assemble {i : Instr} {n : BitVec 8} {a : Word} {p : List Byte}
    (h : assemble (opcodeOf i) n a p = .ok i) : i.WellFormed ∧ ∀ size ps, i = .putBytes size ps → ps = p := by
  cases i with
  | putBytes =>
    obtain ⟨rfl, rfl, hlen⟩ := assemble_putBytes_ok h
    exact ⟨beq_iff_eq.2 hlen, fun _ _ he => (Instr.putBytes.inj he).2.symm⟩
  | _ => exact ⟨rfl, nofun⟩

/-! ### The decoder's checks in their order (rule R108) -/

theorem decode_checked {w : CmdWord} {f : Format} (hf : formatOf (opField w) = some f) (hz : zField w = 0#4)
    (ho : operandsOk f (nField w) (aField w) = true) (p : List Byte) :
    decode w p = assemble (opField w) (nField w) (aField w) p := by
  simp [decode, hf, hz, ho]

/-- A word that decodes has passed every check. -/
theorem checks_of_decode_ok {w : CmdWord} {p : List Byte} {i : Instr} (h : decode w p = .ok i) :
    ∃ f, formatOf (opField w) = some f ∧ zField w = 0#4 ∧ operandsOk f (nField w) (aField w) = true := by
  unfold decode at h
  split at h
  · cases h
  · rename_i f hf
    split at h
    · cases h
    · rename_i hz
      split at h
      · rename_i ho
        exact ⟨f, hf, not_not.1 hz, ho⟩
      · cases h

/-- The decoder refuses exactly where one of its four checks fails. -/
theorem decode_refuses_iff (w : CmdWord) (p : List Byte) :
    (∃ r, decode w p = .error r) ↔
      formatOf (opField w) = none ∨ zField w ≠ 0#4 ∨
      (∃ f, formatOf (opField w) = some f ∧ ¬ operandsOk f (nField w) (aField w) = true) ∨
      (opField w = 0x7#4 ∧ p.length ≠ (aField w).toNat) := by
  cases hf : formatOf (opField w) with
  | none => exact iff_of_true ⟨.reservedOpcode, by rw [decode, hf]⟩ (.inl rfl)
  | some f =>
    by_cases hz : zField w = 0#4
    · by_cases ho : operandsOk f (nField w) (aField w) = true
      · rw [decode_checked hf hz ho, assemble_refuses_iff hf]
        simp [hz, ho]
      · exact iff_of_true ⟨.nonzeroOperand, by simp [decode, hf, hz, ho]⟩ (.inr (.inr (.inl ⟨f, rfl, ho⟩)))
    · exact iff_of_true ⟨.nonzeroZ, by simp [decode, hf, hz]⟩ (.inr (.inl hz))

/-! ### The statements -/

/-- Settles O1: the word's fields are read back, pass the checks of the command's format, and are assembled to the command. -/
theorem decodeInvertsEncode : Obligations.DecodeInvertsEncode := by
  intro i hi
  obtain ⟨f, hf, ho⟩ := operandsOk_fields i
  rw [encode, decode_checked (f := f) (by simpa using hf) (by simp) (by simpa using ho)]
  simpa using assemble_fields hi

/-- Settles O2: a word that decodes has a zero Z field, so it is the word of its fields, and those are the command's. -/
theorem encodeInvertsDecode : Obligations.EncodeInvertsDecode := by
  intro w p i h
  obtain ⟨f, hf, hz, ho⟩ := checks_of_decode_ok h
  rw [decode_checked hf hz ho] at h
  have hop : opField w = opcodeOf i := by
    rcases assemble_cases hf (nField w) (aField w) p with ⟨_, he⟩ | ⟨_, j, he, hop⟩
    · exact absurd (he.symm.trans h) nofun
    · cases he.symm.trans h
      exact hop.symm
  rw [hop] at hf h
  obtain ⟨hn, ha⟩ := fields_of_assemble hf ho h
  refine ⟨?_, wellFormed_of_assemble h⟩
  rw [encode, ← hop, hn, ha, commandWord_fields hz]

/-- Settles O3: each word is the encoding of its command, so O1 decodes it. -/
theorem specWordsDecode : Obligations.SpecWordsDecode :=
  ⟨decodeInvertsEncode .sreset rfl, decodeInvertsEncode .srelease rfl, decodeInvertsEncode (.reserve 16#32) rfl,
    decodeInvertsEncode (.putBits 5#32 3#8) rfl, decodeInvertsEncode (.putBits 0#32 255#8) rfl,
    decodeInvertsEncode .flushBits rfl, decodeInvertsEncode (.putByte 0xFF#8) rfl,
    decodeInvertsEncode (.putBytes 3#32 [0x01#8, 0xFF#8, 0x02#8]) rfl,
    decodeInvertsEncode (.putPackedCode 0xFF08#32) rfl, decodeInvertsEncode .flush rfl,
    decodeInvertsEncode .finalize rfl, decodeInvertsEncode (.caddBits 0xFFFFFF#32 24#8) rfl,
    decodeInvertsEncode (.caddPackedCode 0x503#32) rfl, decodeInvertsEncode .csize rfl⟩

/-- Settles O4: the decoder's four checks, with the reserved opcodes and the failing operand fields listed. -/
theorem illegalWordsExactly : Obligations.IllegalWordsExactly := by
  intro w p
  rw [decode_refuses_iff, formatOf_eq_none_iff, operandsOk_fails_iff, or_assoc, or_assoc]

end Sys2Proof

namespace Sys2Proof.Machine

/-- A running block answers a refused word with ILLEGAL_COMMAND of the decoder, and changes nothing else (rules R105, R106,
R109). -/
theorem step_refused {s : State} {w : CmdWord} {p : List Byte} {rest : List Event}
    (hport : s.port = .command w p :: rest) (hrun : Running s) (href : ∃ r, decode w p = .error r) :
    step s = .next ((s.withPort rest).faulted .illegalCommand .decoder (opField w)) := by
  obtain ⟨r, hr⟩ := href
  rw [step_event hport, runEvent, runCommand_rejected hr, latchFault_fault (s := s.withPort rest) hrun]
  rfl

/-- Settles O5: the first clause of O4. -/
theorem reservedOpcodeFaults : Obligations.ReservedOpcodeFaults := fun _ w p _ hport hrun hop =>
  step_refused hport hrun ((illegalWordsExactly w p).2 (.inl hop))

/-- Settles O6: the clauses of O4 between the reserved opcode and the payload. -/
theorem mustBeZeroFieldFaults : Obligations.MustBeZeroFieldFaults := fun _ w p _ hport hrun hfield =>
  step_refused hport hrun
    ((illegalWordsExactly w p).2 (.inr (hfield.imp_right (Or.imp_right (Or.imp_right .inl)))))

/-- Settles O7: on the port the last clause of O4; called directly, the payload is checked before the writer's guard. -/
theorem payloadLengthFaults : Obligations.PayloadLengthFaults := by
  refine ⟨fun s w p rest hport hrun hop hlen => ?_, fun s size p hrun hlen => ?_⟩
  · rw [← hop]
    exact step_refused hport hrun ((illegalWordsExactly w p).2 (.inr (.inr (.inr (.inr (.inr ⟨hop, hlen⟩))))))
  · rw [exec_eq_commandBody, whenRunning_running hrun, commandBody, requirePayload, if_neg hlen, raise,
      latchFault_fault hrun]
    rfl

end Sys2Proof.Machine

/-! PROOFS. The family of 40_sink_commands.md: SRESET from every sink state (O15), and SRELEASE where it delivers (O16) and where it
raises RELEASE_INVALID (O17). -/

namespace Sys2Proof.Machine

/-! ### SRESET (rules R130 to R132) -/

/-- On both backends an OPEN sink with nothing in it shows nothing (rule R86). -/
theorem sinkView_openedEmpty {s : State} (ho : s.sink.state = .opened) (hu : s.sink.used = 0)
    (hb : s.sink.buf = Memory.empty) : sinkView s = some Memory.empty := by
  cases hk : s.cfg.sinkKind with
  | growable => rw [sinkView_growable ho hk, hu, hb]; rfl
  | external => rw [sinkView_external ho hk, hb]

/-- A writer that has been abandoned is not ACTIVE, so there is nothing left to abandon (rule R131). -/
theorem abandonWriter_mode_ne_active (s : State) : (abandonWriter s).w.mode ≠ .active := by
  rw [abandonWriter_w]
  by_cases hm : s.w.mode = .active <;> simp [hm]

theorem abandonWriter_inactive {s : State} (h : s.w.mode ≠ .active) : abandonWriter s = s := by
  rw [abandonWriter, if_neg h]

/-- What SRESET does, done twice, is what it does once: the sink's reset overwrites the whole sink, and the writer is no longer
ACTIVE. -/
theorem abandonWriter_sinkReset_idem (s : State) :
    abandonWriter (sinkReset (abandonWriter (sinkReset s))) = abandonWriter (sinkReset s) :=
  abandonWriter_inactive (s := sinkReset (abandonWriter (sinkReset s))) (abandonWriter_mode_ne_active (sinkReset s))

/-- Settles O15: the state SRESET leaves has an empty OPEN sink and no ACTIVE writer, and is still running. -/
theorem sresetEmptiesSink : Obligations.SresetEmptiesSink := by
  intro s hrun
  have hrun' : Running (abandonWriter (sinkReset s)) := hrun
  refine ⟨_, exec_sreset hrun, rfl, sinkView_openedEmpty rfl rfl rfl, ?_⟩
  rw [exec_sreset hrun', abandonWriter_sinkReset_idem]

/-! ### SRELEASE (rules R133, R134) -/

theorem releaseResult_growable_finalized {s : State} (hk : s.cfg.sinkKind = .growable) (hf : s.sink.state = .finalized) :
    releaseResult s = deliver s := by
  rw [releaseResult, if_neg (not_not.2 hk), if_neg (not_not.2 hf)]

/-- Where either check of R133 fails, SRELEASE is the latch of RELEASE_INVALID. -/
theorem releaseResult_invalid {s : State} (h : s.cfg.sinkKind = .external ∨ s.sink.state ≠ .finalized) :
    releaseResult s = latchFault .releaseInvalid .sink 0x2#4 s := by
  rcases releaseResult_cases s with ⟨hk, hf, _⟩ | e
  · rcases h with hext | hnf
    · exact absurd (hk.symm.trans hext) nofun
    · exact absurd hf hnf
  · exact e

theorem respOfLength_toNat {n : Nat} (h : n < 2 ^ 64) : (respOfLength n).toNat = n := by
  rw [respOfLength, if_pos h, BitVec.toNat_ofNat, Nat.mod_eq_of_lt h]

/-- Settles O16: both checks of R133 pass, and RESP is the number delivered where 64 bits hold it. -/
theorem sreleaseDelivers : Obligations.SreleaseDelivers := by
  intro s hrun hk hf
  refine ⟨deliver s, ?_, rfl, respOfLength_toNat⟩
  rw [exec_srelease hrun, releaseResult_growable_finalized hk hf]

/-- Settles O17: one check of R133 fails, and a running block latches the fault. -/
theorem sreleaseInvalidFaults : Obligations.SreleaseInvalidFaults := by
  intro s hrun h
  rw [exec_srelease hrun, releaseResult_invalid h, latchFault_fault hrun]
  rfl

end Sys2Proof.Machine

/-! PROOFS. The family of 41_bit_writer.md: FINALIZE as the end of the writer (O26, O27), the operand contract (O28), codes and
flushes with room (O29, O31, O33), raw bytes over pending bits (O37), and on the counter's side the adding commands (O43) and
CSIZE against FLUSH (O46). -/

namespace Sys2Proof.Machine

/-! ### Commands that only raise (rules R140, R143, R160, R212) -/

theorem raise_outcome {s : State} (hr : Running s) (c : Cause) (u : BlockUnit) (op : Opcode) :
    (raise c u op s).outcome = .next (s.faulted c u op) := by
  rw [raise, latchFault_fault hr]; rfl

theorem exec_raises {i : Instr} {s : State} (hr : Running s) {c : Cause} {u : BlockUnit} {op : Opcode}
    (h : commandBody i s = raise c u op s) : exec i s = .next (s.faulted c u op) := by
  rw [exec_eq_commandBody, whenRunning_running hr, h, raise_outcome hr]

/-- In every mode but ACTIVE the guard is all of a writer command, once a payload has its length (rule R140). -/
theorem commandBody_inactive {i : Instr} (hi : writerCommand i = true) (hwf : i.WellFormed) {s : State}
    (hm : s.w.mode ≠ .active) : commandBody i s = raise .writerNotActive .writer (opcodeOf i) s := by
  cases i with
  | reserve | flushBits | putByte | flush | finalize => rw [commandBody, writerGuard_inactive hm]; rfl
  | putBits | putPackedCode => rw [commandBody, putCode, writerGuard_inactive hm]; rfl
  | putBytes size payload =>
    have hlen : payload.length = size.toNat := beq_iff_eq.1 hwf
    rw [commandBody, requirePayload, if_pos hlen, Run.go_andThen, writerGuard_inactive hm]; rfl
  | sreset | srelease | caddBits | caddPackedCode | csize => cases hi

/-- Settles O27: the guard raises before anything else, and a running block latches the fault. -/
theorem inactiveWriterFaults : Obligations.InactiveWriterFaults := fun _ _ hi hwf hr hm =>
  exec_raises hr (commandBody_inactive hi hwf hm)

/-- Only the writer and the counter take codes (rules R104, R143). -/
theorem codeOperands_unit {i : Instr} {u : BlockUnit} {v : Word} {n : Nat} (h : codeOperands i = some (u, v, n)) :
    u = .writer ∨ u = .counter := by
  cases i with
  | putBits | putPackedCode => cases h; exact .inl rfl
  | caddBits | caddPackedCode => cases h; exact .inr rfl
  | sreset | srelease | reserve | flushBits | putByte | putBytes | flush | finalize | csize => cases h

/-- Where CheckCode raises, so does the command, for the unit whose command it is (rules R143, R211). -/
theorem exec_code_refused {i : Instr} {s : State} {u : BlockUnit} {v : Word} {n : Nat} {c : Cause}
    (hc : codeOperands i = some (u, v, n)) (hr : Running s) (hm : u = .writer → s.w.mode = .active)
    (h : checkCode u (opcodeOf i) v n s = raise c u (opcodeOf i) s) :
    exec i s = .next (s.faulted c u (opcodeOf i)) := by
  rw [← raise_outcome hr]
  rcases codeOperands_unit hc with rfl | rfl
  · rw [exec_putCode hc, whenRunning_running hr, putCode, writerGuard_active (hm rfl), Run.go_andThen, h]; rfl
  · rw [exec_addCode hc, whenRunning_running hr, addCode, h]; rfl

/-- Settles O28: CheckCode's two faults, which come before the flush and the append. -/
theorem codeContractFaults : Obligations.CodeContractFaults := fun _ _ _ _ _ hc hr hm =>
  ⟨fun hn => exec_code_refused hc hr hm (checkCode_range hn _ _ _ _),
    fun h1 h24 hv => exec_code_refused hc hr hm (checkCode_width h1 h24 hv _ _ _)⟩

theorem requireNoPending_pending {s : State} (h : s.w.nb ≠ 0) (op : Opcode) :
    requireNoPending op s = raise .pendingBits .writer op s := if_pos h

/-- Settles O37: past the guard, the check for pending bits comes before any byte of the payload. -/
theorem pendingBitsFault : Obligations.PendingBitsFault := by
  refine fun s hw hn => ⟨fun b => exec_raises hw.1 ?_, fun size p hp => exec_raises hw.1 ?_⟩
  · rw [commandBody, writerGuard_active hw.2, Run.go_andThen, requireNoPending_pending hn]; rfl
  · rw [commandBody, requirePayload, if_pos hp, Run.go_andThen, writerGuard_active hw.2, Run.go_andThen,
      requireNoPending_pending hn]; rfl

/-! ### The end of the writer (rules R180 to R182) -/

/-- FINALIZE over an OPEN sink never faults: the writer is DONE, S.USED counts the bytes written, and RESP says whether the sink
is FINALIZED or BROKEN. -/
theorem FinalizeLeaves.terminal {s t : State} (h : FinalizeLeaves s t) (hw : WriterReady s)
    (ho : s.sink.state = .opened) :
    t.w.mode = .done ∧ t.sink.used = s.sink.used + s.w.pos ∧ t.fault = s.fault ∧
      (t.resp = 1#64 ∧ t.sink.state = .finalized ∧ t.sink.buf.len = t.sink.used ∨
        t.resp = 0#64 ∧ t.sink.state = .broken) := by
  cases h with
  | faulted hf => rw [hw.1] at hf; cases hf
  | inactive _ hn => exact absurd hw.2 hn
  | notOpen _ hn => exact absurd ho hn
  | commitFailed _ _ hu => exact ⟨rfl, hu.breaks.used, hu.breaks.fault, .inr ⟨rfl, hu.breaks.state⟩⟩
  | trimmed _ _ hu =>
    exact ⟨rfl, by simpa using hu.keeps.used, by simpa using hu.keeps.fault, .inl ⟨rfl, by simp, by simp⟩⟩
  | trimFailed _ _ hu => exact ⟨rfl, hu.keeps.used, hu.keeps.fault, .inr ⟨rfl, rfl⟩⟩

/-- Settles O26: `FinalizeLeaves.terminal` with the frame of FINALIZE, and O27 for the commands after it. -/
theorem finalizeIsTerminal : Obligations.FinalizeIsTerminal := by
  intro s hw ho
  have hl := exec_finalize_leaves (exec_finalize hw)
  obtain ⟨hdone, hused, hfault, hresult⟩ := hl.terminal hw ho
  refine ⟨_, exec_finalize hw, hdone, hl.frame.acc, hl.frame.nb, hused, hfault, hresult, fun i hi hwf => ?_⟩
  exact inactiveWriterFaults i _ hi hwf ((running_fault_eq hfault).trans hw.1) (by rw [hdone]; decide)

/-! ### Codes and flushes with room (rules R141, R144, R185) -/

/-- Flushing every complete byte leaves W.NB mod 8 bits pending. -/
theorem State.flushed_complete (s : State) :
    s.flushed (s.w.nb / 8) =
      (s.withOutput (flushOutput s.w.acc (s.w.nb / 8))).withBits (s.w.acc <<< (8 * (s.w.nb / 8))) (s.w.nb % 8) := by
  rw [State.flushed, Nat.mod_eq_sub]

/-- Settles O31: with room FLUSHBITS is one flush of the complete bytes. -/
theorem flushBitsEmitsCompleteBytes : Obligations.FlushBitsEmitsCompleteBytes := by
  intro s hw hroom
  rw [exec_flushBits hw, flushBytes_room _ hroom, State.flushed_complete]
  rfl

/-- Settles O29: past the contract, one flush of the complete bytes and one append below the bits that remain. -/
theorem putCodeFlushesThenAppends : Obligations.PutCodeFlushesThenAppends := by
  intro i s v n hc hv hw hroom
  rw [exec_putCode hc, whenRunning_running hw.1, putCode_ok hw.2 hv, flushBytes_room _ hroom, Run.go_andThen,
    State.flushed_complete]
  rfl

/-- Settles O33: the bytes written are the output of a flush of k bytes, which has between k and 2k. -/
theorem flushedByteCounts : Obligations.FlushedByteCounts := by
  intro i s t hi hw h hr
  obtain ⟨acc, k, hk, -, hpos⟩ := exec_flushing_output hi hw h hr
  rw [hpos, Nat.add_sub_cancel_left]
  refine ⟨fun hne => ?_, fun he => ?_⟩
  · rw [← hk.trans (if_neg hne)]
    exact flushOutput_length acc k
  · rw [← hk.trans (if_pos he)]
    exact flushOutput_length acc k

/-! ### The counter (rules R191, R196, R198) -/

/-- Counting every complete byte leaves C.NB mod 8 bits pending. -/
theorem State.countFlushed_complete (s : State) :
    s.countFlushed (s.c.nb / 8) =
      { s with c := {
          acc := s.c.acc <<< (8 * (s.c.nb / 8)), nb := s.c.nb % 8
          total := s.c.total + (flushOutput s.c.acc (s.c.nb / 8)).length } } := by
  rw [State.countFlushed, Nat.mod_eq_sub]

/-- Settles O43: the counter's side of O29, with the total in place of the bytes written. -/
theorem addCodeCountsThenAppends : Obligations.AddCodeCountsThenAppends := by
  intro i s v n hc hv hr hfits
  rw [exec_addCode hc, whenRunning_running hr, addCode_ok hv, countFlush_fits _ (Nat.le_pred_of_lt hfits),
    Run.go_andThen, State.countFlushed_complete]
  rfl

theorem exec_csize_fits {s : State} (hr : Running s) (h : predictedSize s ≤ Config.totalMax) :
    exec .csize s = .next { s with resp := BitVec.ofNat 64 (predictedSize s) } := by
  rw [exec_eq_commandBody, whenRunning_running hr, commandBody, if_neg (by omega)]
  rfl

/-- What FLUSH emits with its pad: at most twice the pending bytes, the started one included (rules R176, R185). -/
theorem projectedTail_le {nb : Nat} (h : nb ≤ 31) (acc : Word) : projectedTail acc nb ≤ 2 * ((nb + 7) / 8) := by
  rw [projectedTail_eq h, padCount_ceil]
  exact (flushOutput_length _ _).2

/-- FLUSH with room writes exactly the projected tail of its own bits (rules R176, R177, R196). -/
theorem exec_flush_projectedTail {s : State} (hinv : Inv s) (hw : WriterReady s)
    (hroom : RoomFor s (projectedTail s.w.acc s.w.nb)) :
    ∃ u, exec .flush s = .next u ∧ Running u ∧ u.w.pos = s.w.pos + projectedTail s.w.acc s.w.nb := by
  rw [projectedTail_eq (hinv.writerCount.2 hw.1), padOnes_padCount] at hroom ⊢
  exact ⟨_, flushPadsAndEmpties s _ _ hinv hw rfl rfl hroom, hw.1, rfl⟩

/-- Settles O46: CSIZE adds the projected tail of C to C.TOTAL, and FLUSH writes that of W, which has the same bits. -/
theorem csizeEqualsFlushedBytes : Obligations.CsizeEqualsFlushedBytes := by
  intro s hinv hw hacc hnb hroom htotal
  have h31 := hinv.writerCount.2 hw.1
  have htail := projectedTail_le h31 s.w.acc
  have hsize : predictedSize s = s.c.total + projectedTail s.w.acc s.w.nb := by rw [predictedSize, hacc, hnb]
  have hfits : predictedSize s < 2 ^ 64 := by omega
  obtain ⟨u, hflush, hrun, hpos⟩ := exec_flush_projectedTail hinv hw (hroom.mono htail)
  refine ⟨_, u, exec_csize_fits hw.1 (Nat.le_pred_of_lt hfits), hflush, hrun, ?_⟩
  rw [BitVec.toNat_ofNat, Nat.mod_eq_of_lt hfits, hsize, hpos, Nat.add_sub_cancel_left]

end Sys2Proof.Machine

/-! PROOFS. The family of 42_bit_counter.md: the count above 2^64 − 1 (O44), CSIZE with its overflow (O45), that no counter command
reads W or S (O48), and parity of the counter with the stream of the same codes (O49). -/

namespace Sys2Proof.Machine

/-! ### Counts in 64 bits (rule R199) -/

theorem le_totalMax_iff (n : Nat) : n ≤ Config.totalMax ↔ n < 2 ^ 64 := by unfold Config.totalMax; omega

theorem totalMax_lt_iff (n : Nat) : Config.totalMax < n ↔ 2 ^ 64 ≤ n := by unfold Config.totalMax; omega

/-- Settles O44: CountFlush raises after the turns that could be counted, and nothing is appended. -/
theorem counterOverflowKeepsEarlierTurns : Obligations.CounterOverflowKeepsEarlierTurns := by
  intro i s v n hc hv hr htotal hover
  obtain ⟨j, hj, hfits, hstops, hrun⟩ :=
    countFlush_overflow (opcodeOf i) ((le_totalMax_iff _).2 htotal) ((totalMax_lt_iff _).2 hover)
  refine ⟨j, hj, (le_totalMax_iff _).1 hfits, (totalMax_lt_iff _).1 hstops, ?_⟩
  rw [exec_addCode hc, whenRunning_running hr, addCode_ok hv, hrun, raise, latchFault_fault (s := s.countFlushed j) hr]
  rfl

theorem exec_csize_overflow {s : State} (hr : Running s) (h : Config.totalMax < predictedSize s) :
    exec .csize s = .next (s.faulted .counterOverflow .counter 0xD#4) :=
  exec_raises hr (if_pos h)

/-- Settles O45: the predicted size is the total and the bytes of the padded accumulator, of which there are at most four. -/
theorem csizePredictsFlush : Obligations.CsizePredictsFlush := by
  rintro s pad tail hinv hr rfl rfl
  have htail := projectedTail_le hinv.counterCount s.c.acc
  have hcount := hinv.counterCount
  rw [← show padCount s.c.nb = (8 - s.c.nb % 8) % 8 from rfl, ← padOnes_padCount, ← projectedTail_eq hcount]
  exact ⟨fun h => exec_csize_fits hr ((le_totalMax_iff _).2 h),
    fun h => exec_csize_overflow hr ((totalMax_lt_iff _).2 h), by omega⟩

/-! ### No counter command reads W or S (rule R190) -/

/-- The state with another writer and sink. -/
def State.withWriterSink (w : Writer) (sink : Sink) (s : State) : State := { s with w := w, sink := sink }

@[simp] theorem State.withWriterSink_c (w : Writer) (sink : Sink) (s : State) : (s.withWriterSink w sink).c = s.c := rfl

/-- A run with `f` applied to the state it leaves. -/
def Run.map (f : State → State) : Run → Run
  | .go s => .go (f s)
  | .ended s => .ended (f s)
  | .stop r => .stop r

theorem Run.map_andThen {f : State → State} {k : State → Run} (hk : ∀ s, k (f s) = (k s).map f) (r : Run) :
    (r.map f).andThen k = (r.andThen k).map f := by
  cases r with
  | go s => exact hk s
  | ended s => rfl
  | stop r => rfl

theorem Run.map_outcome_next {f : State → State} {r : Run} {t : State} (h : r.outcome = .next t) :
    (r.map f).outcome = .next (f t) := by
  cases r with
  | go s => cases h; rfl
  | ended s => cases h; rfl
  | stop r => cases h

section
variable (w : Writer) (sink : Sink)

theorem raise_withWriterSink (c : Cause) (u : BlockUnit) (op : Opcode) (s : State) :
    raise c u op (s.withWriterSink w sink) = (raise c u op s).map (.withWriterSink w sink) := by
  have hf : faultV (s.withWriterSink w sink) = faultV s := rfl
  rw [raise, raise, latchFault, latchFault, hf]
  split <;> rfl

theorem checkCode_withWriterSink (u : BlockUnit) (op : Opcode) (v : Word) (n : Nat) (s : State) :
    checkCode u op v n (s.withWriterSink w sink) = (checkCode u op v n s).map (.withWriterSink w sink) := by
  unfold checkCode
  split
  · exact raise_withWriterSink w sink _ _ _ s
  · split
    · exact raise_withWriterSink w sink _ _ _ s
    · rfl

theorem counterAdd_withWriterSink (op : Opcode) (k : Nat) (s : State) :
    counterAdd op k (s.withWriterSink w sink) = (counterAdd op k s).map (.withWriterSink w sink) := by
  rw [counterAdd, counterAdd, State.withWriterSink_c]
  split
  · exact raise_withWriterSink w sink _ _ _ s
  · rfl

theorem countFlushOne_withWriterSink (op : Opcode) (s : State) :
    countFlushOne op (s.withWriterSink w sink) = (countFlushOne op s).map (.withWriterSink w sink) := by
  rw [countFlushOne, counterAdd_withWriterSink]
  exact Run.map_andThen (fun _ => rfl) _

theorem countFlushLoop_withWriterSink (op : Opcode) (fuel : Nat) (s : State) :
    countFlushLoop op fuel (s.withWriterSink w sink) = (countFlushLoop op fuel s).map (.withWriterSink w sink) := by
  induction fuel generalizing s with
  | zero => rfl
  | succ fuel ih =>
    rw [countFlushLoop, countFlushLoop, State.withWriterSink_c]
    split
    · rw [countFlushOne_withWriterSink]
      exact Run.map_andThen ih _
    · rfl

theorem countFlush_withWriterSink (op : Opcode) (s : State) :
    countFlush op (s.withWriterSink w sink) = (countFlush op s).map (.withWriterSink w sink) :=
  countFlushLoop_withWriterSink w sink op s.c.nb s

theorem addCode_withWriterSink (op : Opcode) (v : Word) (n : Nat) (s : State) :
    addCode op v n (s.withWriterSink w sink) = (addCode op v n s).map (.withWriterSink w sink) := by
  rw [addCode, checkCode_withWriterSink, Run.map_andThen (countFlush_withWriterSink w sink op)]
  exact Run.map_andThen (fun _ => rfl) _

theorem commandBody_counter_withWriterSink {i : Instr} (hi : counterCommand i = true) (s : State) :
    commandBody i (s.withWriterSink w sink) = (commandBody i s).map (.withWriterSink w sink) := by
  cases i with
  | caddBits bits nbits => exact addCode_withWriterSink w sink _ _ _ s
  | caddPackedCode code => exact addCode_withWriterSink w sink _ _ _ s
  | csize =>
    have hsize : predictedSize (s.withWriterSink w sink) = predictedSize s := rfl
    rw [commandBody, commandBody, hsize]
    split
    · exact raise_withWriterSink w sink _ _ _ s
    · rfl
  | sreset | srelease | reserve | putBits | flushBits | putByte | putBytes | putPackedCode | flush | finalize => cases hi

end

/-- Settles O48: the body of a counter command commutes with replacing W and S, and a faulted block keeps its state. -/
theorem counterReadsNoWriterOrSink : Obligations.CounterReadsNoWriterOrSink := by
  intro i s w sink t hi h
  show exec i (s.withWriterSink w sink) = .next (t.withWriterSink w sink)
  rcases exec_next_cases h with ⟨hf, rfl⟩ | ⟨hr, hbody⟩
  · exact exec_faulted (s := t.withWriterSink w sink) hf i
  · rw [exec_eq_commandBody, whenRunning_running (s := s.withWriterSink w sink) hr,
      commandBody_counter_withWriterSink w sink hi]
    exact Run.map_outcome_next hbody

/-! ### One code, for the counter and for the writer (rules R144, R191, R198) -/

/-- The counter after one code that meets the contract and does not overflow: its complete bytes counted, then the code appended
(`exec_caddBits_afterCode`, `exec_putBits_afterCode`). -/
def Counter.afterCode (c : Counter) (x : Word × BitVec 8) : Counter :=
  { acc := (c.acc <<< (8 * (c.nb / 8))) ||| (x.1 <<< (32 - (c.nb % 8 + x.2.toNat)))
    nb := c.nb % 8 + x.2.toNat
    total := c.total + (flushOutput c.acc (c.nb / 8)).length }

/-- The writer seen as a counter: its pending bits, and W.POS as the total. -/
def State.writerAsCounter (s : State) : Counter := { acc := s.w.acc, nb := s.w.nb, total := s.w.pos }

/-- The most bytes `c` and the codes to come can make: two for every started byte of bits (rules R185, R198). -/
def Counter.sizeBound (c : Counter) (codes : List (Word × BitVec 8)) : Nat :=
  c.total + 2 * ((c.nb + (codes.map fun x => x.2.toNat).sum + 7) / 8)

theorem Counter.sizeBound_afterCode (c : Counter) (x : Word × BitVec 8) (codes : List (Word × BitVec 8)) :
    (c.afterCode x).sizeBound codes ≤ c.sizeBound (x :: codes) := by
  have hlen := (flushOutput_length c.acc (c.nb / 8)).2
  simp only [Counter.sizeBound, Counter.afterCode, List.map_cons, List.sum_cons]
  omega

theorem Counter.sizeBound_foldl (c : Counter) (codes : List (Word × BitVec 8)) :
    (codes.foldl Counter.afterCode c).sizeBound [] ≤ c.sizeBound codes := by
  induction codes generalizing c with
  | nil => exact le_rfl
  | cons x codes ih => exact (ih _).trans (c.sizeBound_afterCode x codes)

theorem Counter.flushed_le_sizeBound (c : Counter) (codes : List (Word × BitVec 8)) :
    c.total + (flushOutput c.acc (c.nb / 8)).length ≤ c.sizeBound codes := by
  have hlen := (flushOutput_length c.acc (c.nb / 8)).2
  unfold Counter.sizeBound
  omega

/-- What CSIZE answers for a counter, before it is narrowed to RESP: `predictedSize` of its state (rule R196). -/
def Counter.size (c : Counter) : Nat := c.total + projectedTail c.acc c.nb

theorem predictedSize_eq_size (s : State) : predictedSize s = s.c.size := rfl

theorem Counter.size_le_sizeBound {c : Counter} (h : c.nb ≤ 31) : c.size ≤ c.sizeBound [] :=
  Nat.add_le_add_left (projectedTail_le h c.acc) _

theorem exec_caddBits_afterCode {s : State} {x : Word × BitVec 8} (hx : CodeOk x.1 x.2.toNat) (hr : Running s)
    (h : s.c.total + (flushOutput s.c.acc (s.c.nb / 8)).length < 2 ^ 64) :
    exec (.caddBits x.1 x.2) s = .next { s with c := s.c.afterCode x } :=
  addCodeCountsThenAppends _ s _ _ rfl hx hr h

/-- An active writer has room for what its reservation holds, and the sink a place for it (rule R68). -/
theorem Inv.roomFor {s : State} (h : Inv s) (hm : s.w.mode = .active) {n : Nat} (hn : s.w.pos + n ≤ s.w.rsv) :
    RoomFor s n := by
  rcases Nat.eq_zero_or_pos n with h0 | hpos
  · exact .inl h0
  · exact (h.regionInside hm).room hpos hn

theorem exec_putBits_afterCode {s : State} {x : Word × BitVec 8} (hx : CodeOk x.1 x.2.toNat) (hinv : Inv s)
    (hw : WriterReady s) (h : s.w.pos + (flushOutput s.w.acc (s.w.nb / 8)).length ≤ s.w.rsv) :
    ∃ t, exec (.putBits x.1 x.2) s = .next t ∧ WriterReady t ∧ t.writerAsCounter = s.writerAsCounter.afterCode x :=
  ⟨_, putCodeFlushesThenAppends _ s _ _ rfl hx hw (hinv.roomFor hw.2 h), hw, rfl⟩

/-! ### A sequence of codes (rules R112, R198) -/

theorem execAll_cons {i : Instr} {is : List Instr} {s t : State} (h : exec i s = .next t) :
    execAll (i :: is) s = execAll is t := by rw [execAll, h]

theorem execAll_caddBits {codes : List (Word × BitVec 8)} {s : State} (hcodes : ∀ x ∈ codes, CodeOk x.1 x.2.toNat)
    (hr : Running s) (h : s.c.sizeBound codes < 2 ^ 64) :
    execAll (codes.map fun x => .caddBits x.1 x.2) s = .next { s with c := codes.foldl Counter.afterCode s.c } := by
  induction codes generalizing s with
  | nil => rfl
  | cons x codes ih =>
    obtain ⟨hx, hrest⟩ := List.forall_mem_cons.1 hcodes
    rw [List.map_cons, execAll_cons (exec_caddBits_afterCode hx hr ((s.c.flushed_le_sizeBound _).trans_lt h)),
      ih (s := { s with c := s.c.afterCode x }) hrest hr ((s.c.sizeBound_afterCode x codes).trans_lt h)]
    rfl

theorem execAll_putBits {codes : List (Word × BitVec 8)} {s : State} (hcodes : ∀ x ∈ codes, CodeOk x.1 x.2.toNat)
    (hinv : Inv s) (hw : WriterReady s) (h : s.writerAsCounter.sizeBound codes ≤ s.w.rsv) :
    ∃ t, execAll (codes.map fun x => .putBits x.1 x.2) s = .next t ∧ Inv t ∧ WriterReady t ∧ WriterFrame s t ∧
      t.writerAsCounter = codes.foldl Counter.afterCode s.writerAsCounter := by
  induction codes generalizing s with
  | nil => exact ⟨s, rfl, hinv, hw, .refl s, rfl⟩
  | cons x codes ih =>
    obtain ⟨hx, hrest⟩ := List.forall_mem_cons.1 hcodes
    obtain ⟨u, hu, huw, hbits⟩ :=
      exec_putBits_afterCode hx hinv hw ((s.writerAsCounter.flushed_le_sizeBound _).trans h)
    have hframe := (exec_emitting rfl hu).frame
    have hroom : u.writerAsCounter.sizeBound codes ≤ u.w.rsv := by
      rw [hbits, hframe.rsv]
      exact (s.writerAsCounter.sizeBound_afterCode x codes).trans h
    obtain ⟨t, ht, htinv, htw, htframe, htbits⟩ := ih hrest (exec_inv hinv hu) huw hroom
    refine ⟨t, (execAll_cons hu).trans ht, htinv, htw, hframe.trans htframe, ?_⟩
    rw [htbits, hbits, List.foldl_cons]

theorem execAll_inv {is : List Instr} {s t : State} (hinv : Inv s) (h : execAll is s = .next t) : Inv t := by
  induction is generalizing s with
  | nil => cases h; exact hinv
  | cons i is ih =>
    rw [execAll] at h
    cases hi : exec i s <;> rw [hi] at h
    · exact ih (exec_inv hinv hi) h
    · cases h
    · cases h

/-! ### Parity (rules R196, R198) -/

/-- CADDBITS of every code, then CSIZE: RESP is the size of the counter the codes make. -/
theorem csize_after_codes {codes : List (Word × BitVec 8)} {s : State} (hcodes : ∀ x ∈ codes, CodeOk x.1 x.2.toNat)
    (hinv : Inv s) (hr : Running s) (h : s.c.sizeBound codes < 2 ^ 64) :
    ∃ counted sized, execAll (codes.map fun x => .caddBits x.1 x.2) s = .next counted ∧
      exec .csize counted = .next sized ∧ Inv sized ∧ CounterFrame s sized ∧ Running sized ∧
      sized.resp.toNat = (codes.foldl Counter.afterCode s.c).size := by
  have hadd := execAll_caddBits hcodes hr h
  have hcounted := execAll_inv hinv hadd
  have hsize : (codes.foldl Counter.afterCode s.c).size < 2 ^ 64 :=
    ((Counter.size_le_sizeBound hcounted.counterCount).trans (s.c.sizeBound_foldl codes)).trans_lt h
  have hcsize := exec_csize_fits (s := { s with c := codes.foldl Counter.afterCode s.c }) hr
    (by rw [predictedSize_eq_size]; exact (le_totalMax_iff _).2 hsize)
  exact ⟨_, _, hadd, hcsize, exec_inv hcounted hcsize, ⟨rfl, rfl, rfl, rfl, rfl, rfl⟩, hr,
    (BitVec.toNat_ofNat _ _).trans (Nat.mod_eq_of_lt hsize)⟩

/-- PUTBITS of every code, then FLUSH: with room the cursor is at the size of the counter the same codes make. -/
theorem flush_after_codes {codes : List (Word × BitVec 8)} {s : State} (hcodes : ∀ x ∈ codes, CodeOk x.1 x.2.toNat)
    (hinv : Inv s) (hw : WriterReady s) (h : s.writerAsCounter.sizeBound codes ≤ s.w.rsv) :
    ∃ written flushed, execAll (codes.map fun x => .putBits x.1 x.2) s = .next written ∧
      exec .flush written = .next flushed ∧ WriterReady flushed ∧ WriterFrame s flushed ∧
      flushed.w.pos = (codes.foldl Counter.afterCode s.writerAsCounter).size := by
  obtain ⟨t, ht, htinv, htw, hframe, hbits⟩ := execAll_putBits hcodes hinv hw h
  have hsize : t.writerAsCounter.size ≤ t.w.rsv := by
    rw [hframe.rsv]
    refine (Counter.size_le_sizeBound (htinv.writerCount.2 htw.1)).trans (le_trans ?_ h)
    rw [hbits]
    exact Counter.sizeBound_foldl _ codes
  obtain ⟨u, hu, hur, hpos⟩ := exec_flush_projectedTail htinv htw (htinv.roomFor htw.2 hsize)
  have huframe := (exec_emitting rfl hu).frame
  exact ⟨t, u, ht, hu, ⟨hur, huframe.mode.trans htw.2⟩, hframe.trans huframe, by rw [hpos, ← hbits]; rfl⟩

/-- Where FINALIZE answers 1 the sink view holds the committed bytes and those up to the cursor (rules R86, R180). -/
theorem sinkView_after_finalize {s t : State} (hw : WriterReady s) (ho : s.sink.state = .opened)
    (h : exec .finalize s = .next t) (hresp : t.resp = 1#64) :
    ∃ view, sinkView t = some view ∧ view.len = s.sink.used + s.w.pos := by
  obtain ⟨-, hused, -, ⟨-, hfinal, hlen⟩ | ⟨hzero, -⟩⟩ := (exec_finalize_leaves h).terminal hw ho
  · exact ⟨_, sinkView_finalized hfinal, hlen.trans hused⟩
  · rw [hzero] at hresp
    cases hresp

/-- Settles O49: from empty bits the counter and the writer run one computation on the codes, so CSIZE answers where the cursor is
after FLUSH, and FINALIZE commits the bytes up to there. -/
theorem counterPredictsStreamLength : Obligations.CounterPredictsStreamLength := by
  intro codes s hinv hw hcodes hc hacc hnb hpos ho hused hrsv
  have hsame : s.writerAsCounter = s.c := by rw [State.writerAsCounter, hacc, hnb, hpos, hc]
  have hbound : s.c.sizeBound codes ≤ s.w.rsv := by simpa [Counter.sizeBound, hc] using hrsv
  have hmax : s.w.rsv < 2 ^ 64 := hinv.reservation.trans (by decide)
  obtain ⟨counted, sized, hadd, hcsize, hsinv, hcframe, hsr, hresp⟩ :=
    csize_after_codes hcodes hinv hw.1 (hbound.trans_lt hmax)
  have hsbits : sized.writerAsCounter = s.c := by rw [← hsame, State.writerAsCounter, hcframe.w]; rfl
  obtain ⟨written, flushed, hput, hflush, hfw, hwframe, hcursor⟩ :=
    flush_after_codes hcodes hsinv ⟨hsr, by rw [hcframe.w]; exact hw.2⟩ (by rw [hsbits, hcframe.w]; exact hbound)
  have hopen : flushed.sink.state = .opened := by rw [hwframe.sinkState, hcframe.sink, ho]
  refine ⟨counted, sized, written, flushed, _, hadd, hcsize, hput, hflush, exec_finalize hfw, fun hone => ?_⟩
  obtain ⟨view, hview, hlen⟩ := sinkView_after_finalize hfw hopen (exec_finalize hfw) hone
  refine ⟨view, hview, ?_⟩
  rw [hlen, hwframe.used, hcframe.sink, hused, Nat.zero_add, hcursor, hsbits, hresp]

end Sys2Proof.Machine

/-! PROOFS. The family of 60_exceptions.md: a faulted block performs nothing until the power-on reset (O9), and with nothing on the
port the block waits (O13). -/

namespace Sys2Proof.Machine

/-! ### Events on a faulted block (rules R213, R243, R244) -/

/-- On a faulted block a command word is not even decoded (rule R213). -/
theorem runCommand_faulted {s : State} (h : faultV s = true) (w : CmdWord) (p : List Byte) : runCommand w p s = .next s := by
  rw [runCommand, if_pos h]

theorem constructWriter_faulted {s : State} (h : faultV s = true) : constructWriter s = s := by
  rw [constructWriter, if_pos h]

theorem constructCounter_faulted {s : State} (h : faultV s = true) : constructCounter s = s := by
  rw [constructCounter, if_pos h]

/-- On a faulted block only the power-on reset has an effect. -/
theorem runEvent_faulted {e : Event} {s : State} (h : faultV s = true) (he : ∀ cfg, e ≠ .rstAll cfg) :
    runEvent e s = .next s := by
  cases e with
  | command w p => exact runCommand_faulted h w p
  | rstAll cfg => exact absurd rfl (he cfg)
  | rstW => rw [runEvent, constructWriter_faulted h]
  | rstC => rw [runEvent, constructCounter_faulted h]

/-- Settles O9: the step takes the event off the port, which FAULT does not depend on, and the event then meets a faulted block;
the power-on reset writes FAULT whatever it was. -/
theorem faultedBlockPerformsNothing : Obligations.FaultedBlockPerformsNothing := by
  intro s hf
  refine ⟨exec_faulted hf, fun e rest hport he => ?_, fun cfg rest hport => ?_⟩
  · rw [step_event hport]
    exact runEvent_faulted (s := s.withPort rest) hf he
  · exact ⟨_, step_event hport, powerOnReset_fault cfg _⟩

/-- Settles O13: `step_idle` for every state. -/
theorem idleBlockWaits : Obligations.IdleBlockWaits := fun _ => step_idle

end Sys2Proof.Machine

/-! PROOFS. The family of 70_reset_and_hazards.md: the reset values (O14), the power-on reset (O10), and the construction of the
writer and of the counter (O11, O12). -/

namespace Sys2Proof.Machine

/-! ### The capacity at power-on (rules R44, R45) -/

theorem powerOnCap_growable {cfg : Config} (h : cfg.sinkKind = .growable) : powerOnCap cfg = cfg.initCapHint := by
  rw [powerOnCap, h]

theorem powerOnCap_external {cfg : Config} (h : cfg.sinkKind = .external) : powerOnCap cfg = 0 := by
  rw [powerOnCap, h]

/-! ### Construction on a running block (rules R243, R244) -/

theorem constructWriter_running {s : State} (h : Running s) : constructWriter s = { s with w := Writer.fresh } := by
  rw [constructWriter, h]
  rfl

theorem constructCounter_running {s : State} (h : Running s) : constructCounter s = { s with c := Counter.fresh } := by
  rw [constructCounter, h]
  rfl

/-- Settles O10: the step performs the power-on reset on the state with the event taken off the port. -/
theorem powerOnResetEvent : Obligations.PowerOnResetEvent := by
  intro s cfg rest hport
  rw [step_event hport]
  rfl

/-- Settles O11: FAULT does not depend on the port, so the event meets the block as running or as faulted as it was. -/
theorem writerConstruction : Obligations.WriterConstruction := by
  intro s rest hport
  rw [step_event hport, runEvent]
  refine ⟨fun hrun => ?_, fun hfault => ?_⟩
  · rw [constructWriter_running (s := s.withPort rest) hrun]
    rfl
  · rw [constructWriter_faulted (s := s.withPort rest) hfault]
    rfl

/-- Settles O12: as for the writer, with `constructCounter`. -/
theorem counterConstruction : Obligations.CounterConstruction := by
  intro s rest hport
  rw [step_event hport, runEvent]
  refine ⟨fun hrun => ?_, fun hfault => ?_⟩
  · rw [constructCounter_running (s := s.withPort rest) hrun]
    rfl
  · rw [constructCounter_faulted (s := s.withPort rest) hfault]
    rfl

/-- Settles O14: every value is written in `State.powerOn`, and only the capacity and the length of S.BUF depend on the backend. -/
theorem powerOnValues : Obligations.PowerOnValues :=
  ⟨rfl, fun _ => ⟨rfl, rfl, rfl, rfl, rfl, rfl, fun hk => ⟨powerOnCap_growable hk, powerOnCap_growable hk⟩,
    powerOnCap_external, rfl, rfl⟩⟩

end Sys2Proof.Machine
